-- ==== Sys2Proof/Word.lean ====
section
/-! DEFINITION. The words of `stepper_ramp_gen`: the register word, the command word and the response word.
Bit 0 is the least significant bit of each (00_scope.md R9). The widths are those of 00_scope.md R7. -/

namespace Sys2Proof

/-- A data register, a command operand or a response datum: `XLEN = 32` bits (00_scope.md R7). -/
abbrev Word := BitVec 32

/-- A command word `CMD36`, the value of `cmd[35:0]` (30_encoding.md R65). -/
abbrev CmdWord := BitVec 36

/-- A response word `RSP34`, the value of `rsp[33:0]` (30_encoding.md R68). -/
abbrev RspWord := BitVec 34

end Sys2Proof
end

