-- ==== Sys2Proof/Syntax.lean ====
section
/-! DEFINITION. The nine operations of `stepper_ramp_gen` (30_encoding.md R70) as abstract syntax, and the
source form in which the spec writes a command (30_encoding.md R75). -/

namespace Sys2Proof

/-- The nine assigned rows of the opcode map (30_encoding.md R70). -/
inductive Opcode where
  | new | setAcceleration | setTargetStep | setTargetSpeed | next
  | getStep | getSpeed | getDelay | getPhase
  deriving DecidableEq, Repr

/-- One accepted operation with the operand it uses. `arg` is taken whole (30_encoding.md R67). The five
operations without an operand carry none, because their `arg` is ignored (30_encoding.md R73). -/
inductive Instr where
  /-- `NEW ticks_per_second` (40_configuration.md R85). -/
  | new (ticksPerSecond : Word)
  /-- `SET_ACCELERATION a` (40_configuration.md R87). -/
  | setAcceleration (a : Word)
  /-- `SET_TARGET_STEP s` (40_configuration.md R92). -/
  | setTargetStep (target : Word)
  /-- `SET_TARGET_SPEED v` (40_configuration.md R93). -/
  | setTargetSpeed (v : Word)
  /-- `NEXT` (41_stepping.md R132). -/
  | next
  /-- `GET_STEP` (42_telemetry.md R141). -/
  | getStep
  /-- `GET_SPEED` (42_telemetry.md R142). -/
  | getSpeed
  /-- `GET_DELAY` (42_telemetry.md R143). -/
  | getDelay
  /-- `GET_PHASE` (42_telemetry.md R144). -/
  | getPhase
  deriving DecidableEq, Repr

/-- An operand as the spec writes it: an integer literal, or `<integer> << 8` for a UQ24.8 operand
(30_encoding.md R75). -/
inductive Literal where
  | int (n : Nat)
  | shifted8 (n : Nat)
  deriving DecidableEq, Repr

/-- A command as the spec writes it: a mnemonic followed, where there is an operand, by one literal
(30_encoding.md R75). -/
structure SourceCommand where
  opcode : Opcode
  operand : Option Literal
  deriving DecidableEq, Repr

end Sys2Proof
end

