-- ==== Sys2Proof/WellFormed.lean ====
section
/-! DEFINITION. Which source commands are well formed (30_encoding.md R67, R75). A term of `Instr` needs no
check: its operand is a 32-bit word by type, every operand is encodable, and a bad VALUE of an operand is not
ill-formed, it is answered `INVALID_ARGUMENT` (60_exceptions.md R150). -/

namespace Sys2Proof

/-- Whether the operation takes an operand (30_encoding.md R67). -/
def Opcode.takesOperand : Opcode → Bool
  | .new | .setAcceleration | .setTargetStep | .setTargetSpeed => true
  | .next | .getStep | .getSpeed | .getDelay | .getPhase => false

/-- The integer a literal stands for; `<integer> << 8` means the integer times 256 (30_encoding.md R75). -/
def Literal.value : Literal → Nat
  | .int n => n
  | .shifted8 n => n * 256

/-- An operand is written exactly where the operation takes one (30_encoding.md R75). -/
def SourceCommand.operandPresent (c : SourceCommand) : Bool :=
  c.operand.isSome == c.opcode.takesOperand

/-- The value written; `arg = 0` for an operation without an operand (30_encoding.md R75). -/
def SourceCommand.argValue (c : SourceCommand) : Nat :=
  match c.operand with
  | none => 0
  | some l => l.value

/-- The value fits the 32-bit `arg` field (30_encoding.md R65). -/
def SourceCommand.operandFits (c : SourceCommand) : Bool :=
  decide (c.argValue < 2 ^ 32)

/-- A source command that can be assembled. -/
def SourceCommand.wellFormed (c : SourceCommand) : Bool :=
  c.operandPresent && c.operandFits

end Sys2Proof
end

