-- ==== Sys2Proof/Decode.lean ====
section
/-! DEFINITION. The command word `CMD36`: its fields, the opcode map, the decoder (total, rejecting a reserved
opcode by name), the encoder, and the assembler of a source command (30_encoding.md R65 to R75). -/

namespace Sys2Proof

/-! ### Fields of the command word -/

/-- `op = cmd[35:32]` (30_encoding.md R65). -/
def cmdOp (w : CmdWord) : BitVec 4 := w.extractLsb' 32 4

/-- `arg = cmd[31:0]` (30_encoding.md R65). -/
def cmdArg (w : CmdWord) : Word := w.extractLsb' 0 32

/-- `cmd = op ++ arg` (30_encoding.md R65). -/
def cmdWord (op : BitVec 4) (arg : Word) : CmdWord := op ++ arg

/-! ### The opcode map -/

/-- The `op` code of an operation (30_encoding.md R70). -/
def opcodeCode : Opcode → BitVec 4
  | .new => 0x0#4
  | .setAcceleration => 0x1#4
  | .setTargetStep => 0x2#4
  | .setTargetSpeed => 0x3#4
  | .next => 0x4#4
  | .getStep => 0x8#4
  | .getSpeed => 0x9#4
  | .getDelay => 0xA#4
  | .getPhase => 0xB#4

/-- The mnemonic of an operation, as the opcode map spells it (30_encoding.md R70). -/
def opcodeMnemonic : Opcode → String
  | .new => "NEW"
  | .setAcceleration => "SET_ACCELERATION"
  | .setTargetStep => "SET_TARGET_STEP"
  | .setTargetSpeed => "SET_TARGET_SPEED"
  | .next => "NEXT"
  | .getStep => "GET_STEP"
  | .getSpeed => "GET_SPEED"
  | .getDelay => "GET_DELAY"
  | .getPhase => "GET_PHASE"

/-- The nine operations in the order of the opcode map (30_encoding.md R70). -/
def allOpcodes : List Opcode :=
  [.new, .setAcceleration, .setTargetStep, .setTargetSpeed, .next, .getStep, .getSpeed, .getDelay, .getPhase]

/-- The operation a value of the `op` field selects; none for the seven reserved values
(30_encoding.md R66, R70, R72). -/
def opcodeOf (op : BitVec 4) : Option Opcode :=
  match op.toNat with
  | 0x0 => some .new
  | 0x1 => some .setAcceleration
  | 0x2 => some .setTargetStep
  | 0x3 => some .setTargetSpeed
  | 0x4 => some .next
  | 0x8 => some .getStep
  | 0x9 => some .getSpeed
  | 0xA => some .getDelay
  | 0xB => some .getPhase
  | _ => none

/-- Why a command word stands for no operation. -/
inductive DecodeError where
  /-- The `op` field holds one of the seven reserved values (30_encoding.md R72). -/
  | reservedOpcode (op : BitVec 4)
  deriving DecidableEq, Repr

/-- The instruction of an operation with the whole `arg` field as its operand; `arg` is ignored where the
operation has none (30_encoding.md R67, R73). -/
def instrOf (op : Opcode) (arg : Word) : Instr :=
  match op with
  | .new => .new arg
  | .setAcceleration => .setAcceleration arg
  | .setTargetStep => .setTargetStep arg
  | .setTargetSpeed => .setTargetSpeed arg
  | .next => .next
  | .getStep => .getStep
  | .getSpeed => .getSpeed
  | .getDelay => .getDelay
  | .getPhase => .getPhase

/-- Decoding looks at `op` alone and is total (30_encoding.md R66, R74). -/
def decode (w : CmdWord) : Except DecodeError Instr :=
  match opcodeOf (cmdOp w) with
  | some op => .ok (instrOf op (cmdArg w))
  | none => .error (.reservedOpcode (cmdOp w))

/-! ### The match/mask form -/

/-- The mask of every row of the opcode map (30_encoding.md R66). -/
def opcodeMask : CmdWord := 0xF00000000#36

/-- The match value of a row, `op << 32` (30_encoding.md R66). -/
def opcodeMatch (op : Opcode) : CmdWord := (opcodeCode op).zeroExtend 36 <<< 32

/-- The row test in match/mask form (30_encoding.md R66). -/
def selectsByMask (w : CmdWord) (op : Opcode) : Bool := (w &&& opcodeMask) == opcodeMatch op

/-! ### The encoder -/

/-- The operation of an instruction. -/
def instrOpcode : Instr → Opcode
  | .new _ => .new
  | .setAcceleration _ => .setAcceleration
  | .setTargetStep _ => .setTargetStep
  | .setTargetSpeed _ => .setTargetSpeed
  | .next => .next
  | .getStep => .getStep
  | .getSpeed => .getSpeed
  | .getDelay => .getDelay
  | .getPhase => .getPhase

/-- The `arg` field emitted for an instruction: its operand, or 0 where it has none (30_encoding.md R75). -/
def instrArg : Instr → Word
  | .new a | .setAcceleration a | .setTargetStep a | .setTargetSpeed a => a
  | .next | .getStep | .getSpeed | .getDelay | .getPhase => 0#32

/-- The command word of an instruction, `op ++ arg` (30_encoding.md R65, R75). -/
def encode (i : Instr) : CmdWord := cmdWord (opcodeCode (instrOpcode i)) (instrArg i)

/-- The word a well-formed source command is assembled to, `(op << 32) + arg` (30_encoding.md R75). -/
def assemble (c : SourceCommand) : Option CmdWord :=
  if c.wellFormed then some (cmdWord (opcodeCode c.opcode) (BitVec.ofNat 32 c.argValue)) else none

/-! ### The host's way of writing a word -/

/-- The number `w` of `nbits` bits as a command word: none where it does not fit the 36 wires of `cmd`
(20_memory.md R51; assumption log 4, DESIGN CHOICE: bits 39 to 36 of a word padded to whole bytes are no part of
a command word). -/
def portWord (nbits w : Nat) : Option CmdWord :=
  if w % 2 ^ nbits < 2 ^ 36 then some (BitVec.ofNat 36 (w % 2 ^ nbits)) else none

/-- What the decoder reads from the `nbits` bits of `w`: none where they are no command word or the opcode is
reserved. -/
def decodeTableWord (nbits w : Nat) : Option Instr :=
  match portWord nbits w with
  | none => none
  | some c =>
    match decode c with
    | .ok i => some i
    | .error _ => none

end Sys2Proof
end

