-- ==== Sys2Proof/Config.lean ====
section
/-! DEFINITION. What an implementation of the block fixes and the spec leaves open (00_scope.md R8: `LATENCY(op)` and
nothing else), and the free values that stand where a rule states no value. Each is an opaque constant without a
body: nothing in Lean can evaluate it or prove a value of it. The sizes and limits of 00_scope.md R7 are fixed by
the spec and stand in Machine/Parameters.lean. -/

namespace Sys2Proof

/-- `LATENCY(op) - 1` for a value of the `op` field, an uninterpreted constant of the implementation (assumption
log 3, UNVERIFIED: the spec gives no cycle count). -/
opaque Config.latencyBeyondFirstCycle : BitVec 4 → Nat

/-- `LATENCY(op)`, the clock cycles from the acceptance of a command to its response: one natural number per
opcode, at least 1, independent of state and operand (70_reset_and_hazards.md R186). No step reads it. DESIGN CHOICE
(assumption log 3): it ranges over all 16 values of the `op` field, the seven reserved ones included, whose commands are
accepted and answered too; the spec says "per opcode" (93_implementation_defined.md U4) and "per operation"
(92_eei_decisions.md D27) and leaves open whether a reserved opcode has one. -/
def Config.latency (op : BitVec 4) : Nat := Config.latencyBeyondFirstCycle op + 1

/-- FREE VALUE: `speed_of(F, V, 0)`. The rule gives the speed of a delay `c >= 1` only (10_state.md R37). No run from
reset needs it (assumption log 5, DESIGN CHOICE, safe). -/
opaque Config.speedOfZeroDelay : Nat → Nat → Nat

/-- FREE VALUE: what a register holds after a write of a value that does not fit its 32 bits. The rules write only
values that fit (00_scope.md R10). No run from reset needs it (assumption log 5, DESIGN CHOICE, safe). -/
opaque Config.unfitWrite : Nat → Word

end Sys2Proof
end

