-- ==== Sys2Proof/Machine/State.lean ====
section
/-! DEFINITION. The state of the block as plain data: the ten registers of 10_state.md R20, the two sides of the
command port (20_memory.md R51), the reset state (10_state.md R43), and the reasons a step could stop. -/

namespace Sys2Proof.Machine

/-- The four values of `PHASE`, an explicit tagged variant (10_state.md R31). Their 2-bit codes are given by
`phaseCode` in Machine/Flags.lean. -/
inductive Phase where
  | stopped | accelerating | cruising | decelerating
  deriving DecidableEq, Repr

/-- The four status codes of a response (30_encoding.md R69). Their 2-bit codes are given by `statusCode` in
Machine/Flags.lean. -/
inductive Status where
  | ok | done | invalidArgument | illegal
  deriving DecidableEq, Repr

/-- What the host side of the port does next. -/
inductive PortEvent where
  /-- A rising edge of `clk` with `rst = 1` (70_reset_and_hazards.md R170). -/
  | reset
  /-- The host presents a command word and the block accepts it (20_memory.md R51). -/
  | command (word : CmdWord)
  deriving DecidableEq, Repr

/-- The block and its port. The first ten fields are the complete state of the block (10_state.md R20); `inputs`
and `rsp` are the MODEL's own fields for the command port, since a step of the model takes no argument. -/
structure State where
  /-- `TPS`, timer ticks per second; 0 means "not constructed" (10_state.md R21). -/
  tps : Word
  /-- `ACCEL`, UQ24.8 steps/s^2; 0 means not configured (10_state.md R22). -/
  accel : Word
  /-- `TARGET_STEP`, absolute step at which travel must stop (10_state.md R23). -/
  targetStep : Word
  /-- `TARGET_SPEED`, UQ24.8 steps/s cap; 0 means not configured (10_state.md R24). -/
  targetSpeed : Word
  /-- `STEP`, steps produced since the last NEW or reset (10_state.md R25). -/
  step : Word
  /-- `SPEED`, UQ24.8 steps/s, 0 at rest (10_state.md R26). -/
  speed : Word
  /-- `DELAY`, UQ24.8 ticks, the canonical working variable (10_state.md R27). -/
  delay : Word
  /-- `REST`, the remainder of the last recurrence division (10_state.md R29). -/
  rest : Word
  /-- `RAMP_INDEX`, ordinal of `DELAY` on the acceleration curve (10_state.md R30). -/
  rampIndex : Word
  /-- `PHASE` (10_state.md R31). -/
  phase : Phase
  /-- What the host will present at the port, first event first (MODEL's field; 00_scope.md R18, assumption
  log 1). The empty list is a host that presents nothing. -/
  inputs : List PortEvent
  /-- `rsp` while `rsp_valid = 1`, and `none` while `rsp_valid = 0` (20_memory.md R51; MODEL's field, assumption
  log 2). -/
  rsp : Option RspWord
  deriving DecidableEq, Repr

/-- The machine right after hardware reset: every register 0, `PHASE` Stopped (10_state.md R43), `rsp_valid = 0`
(70_reset_and_hazards.md R171), and a host that has presented nothing yet. -/
def State.reset : State where
  tps := 0#32
  accel := 0#32
  targetStep := 0#32
  targetSpeed := 0#32
  step := 0#32
  speed := 0#32
  delay := 0#32
  rest := 0#32
  rampIndex := 0#32
  phase := .stopped
  inputs := []
  rsp := none

/-- No fault exists: the block has no fault bit, no stuck state and no hang (60_exceptions.md R160). Safe: there is
nothing for the model to raise. -/
inductive Fault where
  deriving DecidableEq, Repr

/-- Why the model gives an instruction no meaning. -/
inductive Refusal where
  /-- Raised by `exec` for an instruction that has no meaning in the model yet. No arm raises it. Safe: a refusal
  proves nothing about the hardware. -/
  | notModelled (mnemonic : String)
  deriving DecidableEq, Repr

end Sys2Proof.Machine
end

