-- ==== Sys2Proof/Machine/Flags.lean ====
section
/-! DEFINITION. The block has no flags and no condition codes (10_state.md R41). What stands in their place is the
2-bit status of a response: this file holds its codes, the codes of `PHASE`, and the response word `RSP34`
(30_encoding.md R68, R69; 10_state.md R31). -/

namespace Sys2Proof.Machine

/-- The codes of the status field (30_encoding.md R69). -/
def statusCode : Status → BitVec 2
  | .ok => 0#2
  | .done => 1#2
  | .invalidArgument => 2#2
  | .illegal => 3#2

/-- The codes of `PHASE` (10_state.md R31). -/
def phaseCode : Phase → BitVec 2
  | .stopped => 0#2
  | .accelerating => 1#2
  | .cruising => 2#2
  | .decelerating => 3#2

/-- The response word `rsp = status ++ data` (30_encoding.md R68). -/
def rspWord (status : Status) (data : Word) : RspWord := statusCode status ++ data

/-- `status = rsp[33:32]` (30_encoding.md R68). -/
def rspStatusField (w : RspWord) : BitVec 2 := w.extractLsb' 32 2

/-- `data = rsp[31:0]` (30_encoding.md R68). -/
def rspDataField (w : RspWord) : Word := w.extractLsb' 0 32

end Sys2Proof.Machine
end

