-- ==== Sys2Proof/Machine/Operands.lean ====
section
/-! DEFINITION. How an operand is read (30_encoding.md R67): unsigned for NEW and SET_TARGET_STEP, signed for the
sign tests of SET_ACCELERATION and SET_TARGET_SPEED; and how an exact value is written to a register. -/

namespace Sys2Proof.Machine

/-- The unsigned reading of an operand or a register, `x[NAME]` (00_scope.md R10, 30_encoding.md R67). -/
abbrev unsigned (v : Word) : Nat := v.toNat

/-- `sx32(v)`, the signed reading of a 32-bit operand (00_scope.md R17). -/
def sx32 (v : Word) : Int :=
  if v.toNat < 2 ^ 31 then (v.toNat : Int) else (v.toNat : Int) - 2 ^ 32

/-- `x[NAME] <- v` for an exact non-negative `v`. The rules write only `0 <= v < 2^32` (00_scope.md R10). A larger
value, which no run from reset writes, leaves a free value (assumption log 5). -/
def toReg (v : Nat) : Word := if v < 2 ^ 32 then BitVec.ofNat 32 v else Config.unfitWrite v

end Sys2Proof.Machine
end

