-- ==== Sys2Proof/Machine/Parameters.lean ====
section
/-! DEFINITION. The sizes and limits of 00_scope.md R7. -/

namespace Sys2Proof.Machine

/-- `FRAC`, the fractional bits of UQ24.8 (00_scope.md R7, R15). -/
def fracBits : Nat := 8

/-- `U32_MAX` (00_scope.md R7). -/
def u32Max : Nat := 4294967295

/-- `S32_MAX` (00_scope.md R7). -/
def s32Max : Nat := 2147483647

/-- `DELAY_MAX = U32_MAX` (00_scope.md R7). -/
def delayMax : Nat := 4294967295

/-- `DELAY_MIN`, one timer tick in UQ24.8 (00_scope.md R7). -/
def delayMin : Nat := 256

/-- `RAMP_INDEX_MAX = 2^30 - 1` (00_scope.md R7). -/
def rampIndexMax : Nat := 1073741823

end Sys2Proof.Machine
end

