-- ==== Sys2Proof/Machine/Ops.lean ====
section
/-! DEFINITION. The operations shared by the meanings: exact integer arithmetic (00_scope.md R13, R14), the derived
values (10_state.md R34 to R37), answering, the two error reports in place of a trap (60_exceptions.md R150, R152,
R157), coming to rest (41_stepping.md R131), hardware reset and the idle port (70_reset_and_hazards.md R170, R171).

The block has no memory (20_memory.md R50), no exception entry and no return from one (60_exceptions.md R157, R158):
an error report is a response word, so `raiseInvalidArgument` and `raiseIllegal` are the whole of it. -/

namespace Sys2Proof.Machine

/-! ### Exact integer arithmetic -/

/-- `cdiv(a, b)`, the ceiling quotient, for `b >= 1` (00_scope.md R13). -/
def cdiv (a b : Nat) : Nat := (a + b - 1) / b

/-- The bits `k - 1` down to 0 of the root of `q` on top of the bits already found in `root`. -/
def isqrtBits (q : Nat) : Nat → Nat → Nat
  | 0, root => root
  | k + 1, root =>
    if (root + 2 ^ k) * (root + 2 ^ k) ≤ q then isqrtBits q k (root + 2 ^ k) else isqrtBits q k root

/-- `isqrt(q)`, the integer square root (00_scope.md R14), one bit of the root at a time. -/
def isqrt (q : Nat) : Nat := isqrtBits q (Nat.log2 q / 2 + 1) 0

/-! ### Derived values -/

/-- `first_delay(F, A)`, the seed and at-rest delay in UQ24.8 ticks (10_state.md R35). -/
def firstDelay (F A : Nat) : Nat :=
  if A = 0 then 0 else ((F * isqrt ((913952 <<< 40) / A)) / 1000) >>> 8

/-- `cruise_delay(F, V)`, the fixed delay of the cruise phase in UQ24.8 ticks (10_state.md R36). -/
def cruiseDelay (F V : Nat) : Nat :=
  if V = 0 then 0 else cdiv (F <<< 16) V

/-- `speed_of(F, V, c)`, the speed of a delay `c >= 1` held while moving (10_state.md R37). At `c = 0`, which no run
from reset holds while moving, it is a free value (assumption log 5). -/
def speedOf (F V c : Nat) : Nat :=
  if c = cruiseDelay F V then V
  else if c = 0 then Config.speedOfZeroDelay F V
  else (F <<< 16) / c

/-- `fd` of 41_stepping.md R105: the first delay of the acceleration in force. -/
def State.seedDelay (s : State) : Nat := firstDelay (unsigned s.tps) (unsigned s.accel)

/-- `cd` of 41_stepping.md R105: the cruise delay of the cap in force. -/
def State.capDelay (s : State) : Nat := cruiseDelay (unsigned s.tps) (unsigned s.targetSpeed)

/-! ### Answering -/

/-- `respond(status, data)`: the operation ends with this response word (30_encoding.md R68). -/
def State.respond (s : State) (status : Status) (data : Word) : Host.Outcome State Fault Refusal :=
  .next { s with rsp := some (rspWord status data) }

/-- `raise InvalidArgument()`: write no register, answer `(INVALID_ARGUMENT, 0)` (60_exceptions.md R150). -/
def State.raiseInvalidArgument (s : State) : Host.Outcome State Fault Refusal :=
  s.respond .invalidArgument 0#32

/-- `raise Illegal()`: write no register, answer `(ILLEGAL, 0)` (60_exceptions.md R152). -/
def State.raiseIllegal (s : State) : Host.Outcome State Fault Refusal :=
  s.respond .illegal 0#32

/-! ### Coming to rest -/

/-- `come_to_rest()`: the four working registers cleared and `DELAY` back at the at-rest sentinel
(41_stepping.md R131). -/
def State.comeToRest (s : State) : State :=
  { s with
    phase := .stopped
    speed := 0#32
    rampIndex := 0#32
    rest := 0#32
    delay := toReg s.seedDelay }

/-! ### The port between operations -/

/-- A clock edge with `rst = 1`: every register 0, `rsp_valid` driven to 0 (70_reset_and_hazards.md R170). The host
goes on with the events that follow. -/
def State.acceptReset (s : State) : State :=
  { State.reset with inputs := s.inputs.tail }

/-- The port takes the event at the head of the stream and no response is on `rsp` yet (20_memory.md R51). -/
def State.takeEvent (s : State) : State :=
  { s with inputs := s.inputs.tail, rsp := none }

/-- A host that presents nothing: the block holds its registers and does nothing (60_exceptions.md R166), and no
further response appears, since each command has exactly one (20_memory.md R51; assumption log 2). -/
def State.idle (s : State) : State :=
  { s with rsp := none }

/-- `cmd_ready`: 0 while `rst = 1`, otherwise 1 between operations (70_reset_and_hazards.md R170, R171). -/
def State.cmdReady (s : State) : Bool :=
  match s.inputs with
  | .reset :: _ => false
  | _ => true

/-- `rsp_valid` (20_memory.md R51). -/
def State.rspValid (s : State) : Bool := s.rsp.isSome

end Sys2Proof.Machine
end

