-- ==== Sys2Proof/Machine/Configuration.lean ====
section
/-! DEFINITION. The four configuration operations (40_configuration.md R85 to R98). -/

namespace Sys2Proof.Machine

/-- `NEW ticks_per_second` (40_configuration.md R85, R86). -/
def execNew (ticksPerSecond : Word) (s : State) : Host.Outcome State Fault Refusal :=
  if unsigned ticksPerSecond = 0 then s.raiseInvalidArgument
  else
    State.respond
      { s with
        tps := ticksPerSecond
        accel := 0#32
        targetStep := 0#32
        targetSpeed := 0#32
        step := 0#32
        speed := 0#32
        delay := 0#32
        rest := 0#32
        rampIndex := 0#32
        phase := .stopped }
      .ok 0#32

/-- A delay that is under one tick or does not fit the `DELAY` register (40_configuration.md R88, R94). -/
abbrev DelayOutOfRange (d : Nat) : Prop := d < delayMin ∨ d > delayMax

/-- The ramp index that places the present speed on the curve of a new acceleration: DOC0's closed form
`speed^2 / (2 * acceleration)`, plus one (40_configuration.md R90). -/
def resyncIndex (speed a : Nat) : Nat := min rampIndexMax ((speed * speed) / (512 * a) + 1)

/-- `SET_ACCELERATION a` (40_configuration.md R87 to R90). -/
def execSetAcceleration (a : Word) (s : State) : Host.Outcome State Fault Refusal :=
  if sx32 a ≤ 0 then s.raiseInvalidArgument
  else if DelayOutOfRange (firstDelay (unsigned s.tps) (unsigned a)) then s.raiseInvalidArgument
  else if s.phase = .stopped then
    State.respond
      { s with
        accel := a
        delay := toReg (firstDelay (unsigned s.tps) (unsigned a)) }
      .ok 0#32
  else
    State.respond
      { s with
        accel := a
        rampIndex := toReg (resyncIndex (unsigned s.speed) (unsigned a))
        rest := 0#32 }
      .ok 0#32

/-- `SET_TARGET_STEP s` (40_configuration.md R92). -/
def execSetTargetStep (target : Word) (s : State) : Host.Outcome State Fault Refusal :=
  State.respond { s with targetStep := target } .ok 0#32

/-- `SET_TARGET_SPEED v` (40_configuration.md R93, R94). -/
def execSetTargetSpeed (v : Word) (s : State) : Host.Outcome State Fault Refusal :=
  if sx32 v ≤ 0 then s.raiseInvalidArgument
  else if DelayOutOfRange (cruiseDelay (unsigned s.tps) (unsigned v)) then s.raiseInvalidArgument
  else State.respond { s with targetSpeed := v } .ok 0#32

end Sys2Proof.Machine
end

