-- ==== Sys2Proof/Machine/Ramp.lean ====
section
/-! DEFINITION. The three sub-blocks inside NEXT (00_scope.md R2): `pid_phase_fsm`, the choice of an action and of a
phase (41_stepping.md R105 to R117); `fixed_point_delay_recurrence`, the arithmetic of one step (R118 to R123); and
`accumulator_error_corrector`, the fate of the remainder (R124 to R126). -/

namespace Sys2Proof.Machine

/-! ### pid_phase_fsm -/

/-- `rem`, the steps that remain to the target, 0 when the target is at or behind the step (41_stepping.md R105). -/
def State.remaining (s : State) : Nat :=
  if unsigned s.targetStep > unsigned s.step then unsigned s.targetStep - unsigned s.step else 0

/-- The action of one NEXT (41_stepping.md R108). -/
inductive Action where
  | seed | accel | decelStop | decelFloor | hold
  deriving DecidableEq, Repr

/-- `decide(n, rem, c, cd)`: the action, chosen by comparisons alone, in order of priority (41_stepping.md R108). -/
def chooseAction (n rem c cd : Nat) : Action :=
  if n = 0 then .seed
  else if rem ≤ n - 1 then .decelStop
  else if c < cd then .decelFloor
  else if c = cd then .hold
  else if rem ≥ n + 1 then .accel
  else .hold

/-- The provisional phase of an action (41_stepping.md R116). -/
def provisionalPhase : Action → Phase
  | .seed => .accelerating
  | .accel => .accelerating
  | .hold => .cruising
  | .decelStop => .decelerating
  | .decelFloor => .decelerating

/-! ### accumulator_error_corrector -/

/-- `r0`: the remainder is dropped when the provisional phase differs from the stored one
(41_stepping.md R125 (a)). -/
def carriedRest (p ph : Phase) (r : Nat) : Nat := if p ≠ ph then 0 else r

/-! ### fixed_point_delay_recurrence -/

/-- What one step computes: `c'`, `n'`, `r'`, `p'` of 41_stepping.md R132. -/
structure RampPoint where
  delay : Nat
  index : Nat
  rest : Nat
  phase : Phase
  deriving DecidableEq, Repr

/-- The SEED action, the first step from rest (41_stepping.md R113). -/
def seedStep (fd cd : Nat) : RampPoint where
  delay := max fd cd
  index := 1
  rest := 0
  phase := if fd > cd then .accelerating else .cruising

/-- The numerator of every recurrence division (41_stepping.md R124). -/
def recurrenceNum (c r : Nat) : Nat := 2 * c + r

/-- The denominator of an acceleration step (41_stepping.md R119). -/
def accelDen (n : Nat) : Nat := 4 * n + 1

/-- The denominator of a deceleration step from ordinal `n`, `4 * (n - 1) - 1` (41_stepping.md R121). -/
def decelDen (n : Nat) : Nat := 4 * (n - 1) - 1

/-- `accel_step(c, n, r)`, for `n >= 1` (41_stepping.md R119). Where `delta` exceeds `c`, which no run from reset
reaches, the exact difference is negative and the clamp that follows (R120) takes the cruise delay, as it does from
the 0 that the subtraction of naturals leaves. -/
def accelStep (c n r : Nat) : RampPoint where
  delay := c - recurrenceNum c r / accelDen n
  index := min rampIndexMax (n + 1)
  rest := recurrenceNum c r % accelDen n
  phase := .accelerating

/-- The clamp of an acceleration step at the cap; `n'` keeps its incremented value (41_stepping.md R120). -/
def clampAccel (cd : Nat) (p : RampPoint) : RampPoint :=
  if p.delay ≤ cd then { p with delay := cd, rest := 0, phase := .cruising } else p

/-- `decel_step(c, n, r)`, for `n >= 2` (41_stepping.md R121). -/
def decelStep (c n r : Nat) : RampPoint where
  delay := min delayMax (c + recurrenceNum c r / decelDen n)
  index := n - 1
  rest := recurrenceNum c r % decelDen n
  phase := .decelerating

/-- `decel_floor(c, n, r, cd)`: a deceleration step with the cruise delay as floor (41_stepping.md R122). -/
def decelFloor (c n r cd : Nat) : RampPoint :=
  if n ≥ 2 then
    if (decelStep c n r).delay ≥ cd then
      { decelStep c n r with delay := cd, rest := 0, phase := .cruising }
    else decelStep c n r
  else { delay := cd, index := 1, rest := 0, phase := .cruising }

/-- The HOLD action (41_stepping.md R117). -/
def holdStep (c n : Nat) : RampPoint where
  delay := c
  index := n
  rest := 0
  phase := .cruising

/-- The step an action computes (41_stepping.md R132). -/
def takeAction (act : Action) (fd cd c n r0 : Nat) : RampPoint :=
  match act with
  | .seed => seedStep fd cd
  | .accel => clampAccel cd (accelStep c n r0)
  | .decelStop => decelStep c n r0
  | .decelFloor => decelFloor c n r0 cd
  | .hold => holdStep c n

/-! ### The step of a state -/

/-- The action of the next NEXT that takes a step (41_stepping.md R108). -/
def State.action (s : State) : Action :=
  chooseAction (unsigned s.rampIndex) s.remaining (unsigned s.delay) s.capDelay

/-- What that NEXT computes (41_stepping.md R132). -/
def State.rampPoint (s : State) : RampPoint :=
  takeAction s.action s.seedDelay s.capDelay (unsigned s.delay) (unsigned s.rampIndex)
    (carriedRest (provisionalPhase s.action) s.phase (unsigned s.rest))

/-- `s' = min(U32_MAX, s + 1)` (41_stepping.md R129). -/
def State.stepAfter (s : State) : Nat := min u32Max (unsigned s.step + 1)

/-- The six register writes of a step, all taking effect together (41_stepping.md R132, 00_scope.md R10). -/
def State.writeRampPoint (s : State) (p : RampPoint) : State :=
  { s with
    step := toReg s.stepAfter
    delay := toReg p.delay
    rampIndex := toReg p.index
    rest := toReg p.rest
    phase := p.phase
    speed := toReg (speedOf (unsigned s.tps) (unsigned s.targetSpeed) p.delay) }

/-- The stop test of 41_stepping.md R131: `s' >= T` and `n' <= 1`. -/
def State.stopsAt (s : State) (p : RampPoint) : Bool :=
  decide (s.stepAfter ≥ unsigned s.targetStep ∧ p.index ≤ 1)

/-- The state after a step: the writes, overridden by the stop rule where it fires (41_stepping.md R131, R132). -/
def State.afterStep (s : State) (p : RampPoint) : State :=
  if s.stopsAt p then (s.writeRampPoint p).comeToRest else s.writeRampPoint p

end Sys2Proof.Machine
end

