-- ==== Sys2Proof/Machine/Stepping.lean ====
section
/-! DEFINITION. The stepping operation NEXT (41_stepping.md R105 to R132). -/

namespace Sys2Proof.Machine

/-- `NEXT`, complete (41_stepping.md R132). -/
def execNext (s : State) : Host.Outcome State Fault Refusal :=
  if unsigned s.accel = 0 ∨ unsigned s.targetSpeed = 0 then s.respond .done s.delay
  else if s.remaining = 0 ∧ unsigned s.rampIndex ≤ 1 then
    if s.phase ≠ .stopped then s.comeToRest.respond .done (toReg s.seedDelay)
    else s.respond .done s.delay
  else (s.afterStep s.rampPoint).respond .ok (toReg s.rampPoint.delay)

end Sys2Proof.Machine
end

