-- ==== Sys2Proof/Machine/Telemetry.lean ====
section
/-! DEFINITION. The four telemetry reads (42_telemetry.md R140 to R145). -/

namespace Sys2Proof.Machine

/-- `GET_STEP` (42_telemetry.md R141). -/
def execGetStep (s : State) : Host.Outcome State Fault Refusal := s.respond .ok s.step

/-- `GET_SPEED` (42_telemetry.md R142). -/
def execGetSpeed (s : State) : Host.Outcome State Fault Refusal := s.respond .ok s.speed

/-- `GET_DELAY` (42_telemetry.md R143). -/
def execGetDelay (s : State) : Host.Outcome State Fault Refusal := s.respond .ok s.delay

/-- `GET_PHASE`: the 2-bit value zero-extended to 32 bits (42_telemetry.md R144). -/
def execGetPhase (s : State) : Host.Outcome State Fault Refusal :=
  s.respond .ok ((phaseCode s.phase).zeroExtend 32)

end Sys2Proof.Machine
end

