-- ==== Sys2Proof/Machine/Dispatch.lean ====
section
/-! DEFINITION. One arm per operation of the opcode map (30_encoding.md R70). -/

namespace Sys2Proof.Machine

def exec (i : Instr) (s : State) : Host.Outcome State Fault Refusal :=
  match i with
  | .new ticksPerSecond => Sys2Proof.Machine.execNew ticksPerSecond s
  | .setAcceleration a => Sys2Proof.Machine.execSetAcceleration a s
  | .setTargetStep target => Sys2Proof.Machine.execSetTargetStep target s
  | .setTargetSpeed v => Sys2Proof.Machine.execSetTargetSpeed v s
  | .next => Sys2Proof.Machine.execNext s
  | .getStep => Sys2Proof.Machine.execGetStep s
  | .getSpeed => Sys2Proof.Machine.execGetSpeed s
  | .getDelay => Sys2Proof.Machine.execGetDelay s
  | .getPhase => Sys2Proof.Machine.execGetPhase s

end Sys2Proof.Machine
end

