-- ==== Sys2Proof/Machine/Step.lean ====
section
/-! DEFINITION. One step of the machine: the port takes the next event of the host's stream and the block answers it
whole (00_scope.md R12, R18; 20_memory.md R58). -/

namespace Sys2Proof.Machine

/-- An accepted command word: the opcode is decoded first (60_exceptions.md R156); an assigned one is executed, a
reserved one reports `ILLEGAL` and changes no register (30_encoding.md R72). -/
def execWord (w : CmdWord) (s : State) : Host.Outcome State Fault Refusal :=
  match decode w with
  | .ok i => exec i s
  | .error _ => s.raiseIllegal

/-- One event of the port, answered whole; with nothing presented the block idles. -/
def step (s : State) : Host.Outcome State Fault Refusal :=
  match s.inputs with
  | [] => .next s.idle
  | .reset :: _ => .next s.acceptReset
  | .command w :: _ => execWord w s.takeEvent

/-- `s` with the command word of `nbits` bits of `w` presented next, before everything the host has still to present:
the model's way of a host issuing one more command (assumption log 1). A number that is no command word is not
presented. -/
def State.withFetchWord (s : State) (nbits w : Nat) : State :=
  match portWord nbits w with
  | some c => { s with inputs := .command c :: s.inputs }
  | none => s

end Sys2Proof.Machine
end

