-- ==== Sys2Proof/Machine/Assembler.lean ====
section
/-! DEFINITION. The textual form of a command (30_encoding.md R75): a mnemonic, then where there is an operand one
integer literal (decimal, or hexadecimal with `0x`), which may be followed by `<< 8`; one command per line; `;`
starts a comment. A line is a list of characters. The block never sees text: this is the host's notation. -/

namespace Sys2Proof.Machine

/-- Why a line is no command. -/
inductive LineError where
  /-- The first word is none of the nine mnemonics. -/
  | unknownMnemonic
  /-- What follows the mnemonic is neither nothing, nor a literal, nor a literal and `<< 8`. -/
  | badOperand
  /-- The command is not well formed: an operand missing, superfluous, or above 32 bits. -/
  | illFormed
  deriving DecidableEq, Repr

/-- The part of a line before its comment. -/
def dropComment (line : List Char) : List Char := line.takeWhile (· != ';')

/-- Whether a character separates words. -/
def isBlank (ch : Char) : Bool := ch == ' ' || ch == '\t' || ch == '\r'

/-- The words of a line; `word` holds the present word's characters, last first. -/
def splitWords : List Char → List Char → List (List Char)
  | word, [] => if word.isEmpty then [] else [word.reverse]
  | word, ch :: rest =>
    if isBlank ch then
      if word.isEmpty then splitWords [] rest else word.reverse :: splitWords [] rest
    else splitWords (ch :: word) rest

/-- The value of a digit of base 10 or 16. -/
def digitValue (base : Nat) (ch : Char) : Option Nat :=
  if 48 ≤ ch.toNat ∧ ch.toNat ≤ 57 then some (ch.toNat - 48)
  else if base = 16 ∧ 97 ≤ ch.toNat ∧ ch.toNat ≤ 102 then some (ch.toNat - 87)
  else if base = 16 ∧ 65 ≤ ch.toNat ∧ ch.toNat ≤ 70 then some (ch.toNat - 55)
  else none

/-- The value of a run of digits after `acc`. -/
def digitsValue (base : Nat) : Nat → List Char → Option Nat
  | acc, [] => some acc
  | acc, ch :: rest =>
    match digitValue base ch with
    | some d => digitsValue base (acc * base + d) rest
    | none => none

/-- An integer literal, decimal or hexadecimal with `0x` (30_encoding.md R75). DESIGN CHOICE (assumption log 9): a literal
has digits only and no sign, for the signed operands too, so that `-1` is a bad operand; a negative operand is written as
its unsigned 32-bit value. -/
def integerLiteral : List Char → Option Nat
  | [] => none
  | '0' :: 'x' :: ch :: rest => digitsValue 16 0 (ch :: rest)
  | ch :: rest => digitsValue 10 0 (ch :: rest)

/-- The operation a word names (30_encoding.md R70). -/
def opcodeOfWord (word : List Char) : Option Opcode :=
  allOpcodes.find? fun op => (opcodeMnemonic op).toList == word

/-- What follows the mnemonic. -/
def operandOfWords : List (List Char) → Except LineError (Option Literal)
  | [] => .ok none
  | [w] =>
    match integerLiteral w with
    | some n => .ok (some (.int n))
    | none => .error .badOperand
  | [w, ['<', '<'], ['8']] =>
    match integerLiteral w with
    | some n => .ok (some (.shifted8 n))
    | none => .error .badOperand
  | _ => .error .badOperand

/-- A line as a source command; none for a line that holds no command. -/
def parseLine (line : List Char) : Except LineError (Option SourceCommand) :=
  match splitWords [] (dropComment line) with
  | [] => .ok none
  | name :: operand =>
    match opcodeOfWord name with
    | none => .error .unknownMnemonic
    | some op =>
      match operandOfWords operand with
      | .ok l => .ok (some ⟨op, l⟩)
      | .error e => .error e

/-- A line as a command word; none for a line that holds no command (30_encoding.md R75). -/
def assembleLine (line : List Char) : Except LineError (Option CmdWord) :=
  match parseLine line with
  | .error e => .error e
  | .ok none => .ok none
  | .ok (some c) =>
    match assemble c with
    | some w => .ok (some w)
    | none => .error .illFormed

end Sys2Proof.Machine
end

