-- ==== Sys2Proof/Safety.lean ====
section
/-! DEFINITION. The terms claims are stated in: rest and motion, the invariant that every reachable state meets, the
promises of a ramp that the host does not disturb, and what one step of a ramp leaves behind. A run is safe when
every step answers a next state; since the block has no fault (60_exceptions.md R160), every run is. -/

namespace Sys2Proof.Machine

/-! ### Rest and motion -/

/-- At rest: `PHASE` is Stopped (00_scope.md, glossary). -/
abbrev State.AtRest (s : State) : Prop := s.phase = .stopped

/-- Configured: both setters have succeeded since the last NEW (00_scope.md, glossary). -/
abbrev State.Configured (s : State) : Prop := s.accel.toNat ≠ 0 ∧ s.targetSpeed.toNat ≠ 0

/-- The ten registers alone: the port is cleared. -/
def State.registers (s : State) : State := { s with inputs := [], rsp := none }

/-- The code in the status field of the response on `rsp`, if there is one. -/
def State.rspStatus (s : State) : Option (BitVec 2) := s.rsp.map rspStatusField

/-- The datum of the response on `rsp`, if there is one. -/
def State.rspData (s : State) : Option Word := s.rsp.map rspDataField

/-- A safe run: `n` steps from `s` stop at no fault and no refusal. -/
def SafeRun (n : Nat) (s : State) : Prop := ∃ t, Sys2Proof.core.run n s = .next t

/-! ### The invariant of reachable states -/

/-- `PHASE = 0` if and only if `RAMP_INDEX = 0` (10_state.md R38). -/
abbrev State.PhaseMatchesIndex (s : State) : Prop := s.phase = .stopped ↔ s.rampIndex.toNat = 0

/-- At rest `SPEED` and `REST` are 0 and `DELAY` is the first delay (10_state.md R38). -/
abbrev State.RestRegisters (s : State) : Prop :=
  s.phase = .stopped →
    s.speed.toNat = 0 ∧ s.rest.toNat = 0 ∧ s.delay.toNat = firstDelay s.tps.toNat s.accel.toNat

/-- `ACCEL` is 0 or passed the guard of SET_ACCELERATION (10_state.md R22, 40_configuration.md R88). -/
abbrev State.AccelLegal (s : State) : Prop :=
  s.accel.toNat = 0 ∨
    (s.accel.toNat < 2 ^ 31 ∧ 256 ≤ firstDelay s.tps.toNat s.accel.toNat ∧
      firstDelay s.tps.toNat s.accel.toNat < 2 ^ 32)

/-- `TARGET_SPEED` is 0 or passed the guard of SET_TARGET_SPEED (10_state.md R24, 40_configuration.md R94). -/
abbrev State.CapLegal (s : State) : Prop :=
  s.targetSpeed.toNat = 0 ∨
    (s.targetSpeed.toNat < 2 ^ 31 ∧ 256 ≤ cruiseDelay s.tps.toNat s.targetSpeed.toNat ∧
      cruiseDelay s.tps.toNat s.targetSpeed.toNat < 2 ^ 32)

/-- While moving the block is configured (41_stepping.md R106) and `DELAY` is at least one tick and so long that no
speed computed from it reaches `2^31` (10_state.md R26, R27). -/
abbrev State.MotionRegisters (s : State) : Prop :=
  s.phase ≠ .stopped →
    s.accel.toNat ≠ 0 ∧ s.targetSpeed.toNat ≠ 0 ∧ 256 ≤ s.delay.toNat ∧
      s.tps.toNat * 65536 ≤ 2147483647 * s.delay.toNat

/-- `RAMP_INDEX` is at most `2^30 - 1` and `SPEED` below `2^31` (10_state.md R30, R26). -/
abbrev State.IndexAndSpeedInRange (s : State) : Prop :=
  s.rampIndex.toNat ≤ 1073741823 ∧ s.speed.toNat < 2 ^ 31

/-- `REST` is 0 while cruising and otherwise below the denominator of the division that left it
(41_stepping.md R125, 10_state.md R29). -/
abbrev State.RestBelowDenominator (s : State) : Prop :=
  (s.phase = .cruising → s.rest.toNat = 0) ∧
    (s.phase = .accelerating → s.rest.toNat < 4 * s.rampIndex.toNat + 1) ∧
    (s.phase = .decelerating → s.rest.toNat < 4 * s.rampIndex.toNat - 1)

/-- The invariant: what holds of the registers after reset and after every step. -/
abbrev State.Inv (s : State) : Prop :=
  s.PhaseMatchesIndex ∧ s.RestRegisters ∧ s.AccelLegal ∧ s.CapLegal ∧ s.MotionRegisters ∧
    s.IndexAndSpeedInRange ∧ s.RestBelowDenominator

/-! ### A ramp that the host does not disturb -/

/-- The present delay is not shorter than the cruise delay: the cap has not been lowered below the running speed
(10_state.md R39 (a)). -/
abbrev State.WithinCap (s : State) : Prop :=
  s.phase ≠ .stopped → cruiseDelay s.tps.toNat s.targetSpeed.toNat ≤ s.delay.toNat

/-- The target is not inside the braking distance of `RAMP_INDEX - 1` steps (10_state.md R39 (b),
70_reset_and_hazards.md R177); at rest, it is not behind the step. -/
abbrev State.OnTrack (s : State) : Prop :=
  if s.phase = .stopped then s.step.toNat ≤ s.targetStep.toNat
  else s.step.toNat < s.targetStep.toNat ∧ s.step.toNat + s.rampIndex.toNat ≤ s.targetStep.toNat + 1

/-- Inside the braking distance: at most `RAMP_INDEX - 1` steps remain and at least one must be braked
(41_stepping.md R110, R111). -/
abbrev State.Braking (s : State) : Prop :=
  2 ≤ s.rampIndex.toNat ∧ s.targetStep.toNat ≤ s.step.toNat + (s.rampIndex.toNat - 1)

/-! ### What one step of a ramp leaves -/

/-- The configuration registers and the host's stream are as before: NEXT never writes them (41_stepping.md R132). -/
def State.SameConfiguration (s t : State) : Prop :=
  t.tps = s.tps ∧ t.accel = s.accel ∧ t.targetStep = s.targetStep ∧ t.targetSpeed = s.targetSpeed ∧
    t.inputs = s.inputs

/-- The registers of a block that has come to rest (41_stepping.md R131). -/
def State.HasComeToRest (t : State) : Prop :=
  t.phase = .stopped ∧ t.speed.toNat = 0 ∧ t.rampIndex.toNat = 0 ∧ t.rest.toNat = 0 ∧
    t.delay.toNat = firstDelay t.tps.toNat t.accel.toNat

/-- From `s` one step has been taken to `t`, which produced delay `d`, ordinal `n`, remainder `r` and phase `p`: the
answer is `(OK, d)` with `d` at least one tick (30_encoding.md R71, 41_stepping.md R130), `STEP` has counted, and the block has come to rest if the step reached the target at the lowest
ordinal, and otherwise holds `d`, `n`, `r`, `p` and the speed of `d` (41_stepping.md R128 to R131). -/
def State.TookStep (s t : State) (d n r : Nat) (p : Phase) : Prop :=
  s.SameConfiguration t ∧
    t.step.toNat = min 4294967295 (s.step.toNat + 1) ∧
    256 ≤ d ∧ d < 2 ^ 32 ∧ t.rsp = some (0#2 ++ BitVec.ofNat 32 d) ∧
    (if t.step.toNat ≥ s.targetStep.toNat ∧ n ≤ 1 then t.HasComeToRest
     else
       t.phase = p ∧ t.delay.toNat = d ∧ t.rampIndex.toNat = n ∧ t.rest.toNat = r ∧
         t.speed.toNat =
           (if d = cruiseDelay s.tps.toNat s.targetSpeed.toNat then s.targetSpeed.toNat
            else s.tps.toNat * 65536 / d))

/-! ### The wider integer type -/

/-- A number as an unsigned 64-bit word, the "wider integer type" of 41_stepping.md R127. -/
abbrev wide (k : Nat) : BitVec 64 := BitVec.ofNat 64 k

end Sys2Proof.Machine
end

