-- ==== Sys2Proof/Certificates/Slice0/Obligations.lean ====
section
/-! DEFINITION. The statements about the block. Each formalises the rules of spec/ its docstring names. A response
word is written out: `0x0…` OK, `0x1…` DONE, `0x2…` INVALID_ARGUMENT, `0x3…` ILLEGAL (30_encoding.md R69). -/

open Sys2Proof Sys2Proof.Machine

/-! ### Encoding -/

/-- The command words of vector V3, the ignored operands of V4 and the reserved words of V6 (95_test_vectors.md). -/
def Obligations.WrittenOutWordsDecode : Prop :=
  decode 0x0000F4240#36 = .ok (.new 1000000#32) ∧
  decode 0x10003E800#36 = .ok (.setAcceleration 256000#32) ∧
  decode 0x2000003E8#36 = .ok (.setTargetStep 1000#32) ∧
  decode 0x300032000#36 = .ok (.setTargetSpeed 204800#32) ∧
  decode 0x400000000#36 = .ok .next ∧ decode 0x4DEADBEEF#36 = .ok .next ∧
  decode 0x800000000#36 = .ok .getStep ∧ decode 0x900000000#36 = .ok .getSpeed ∧
  decode 0xA00000000#36 = .ok .getDelay ∧ decode 0xB00000001#36 = .ok .getPhase ∧
  decode 0x5DEADBEEF#36 = .error (.reservedOpcode 0x5#4)

/-- Decode and encode agree: every instruction is read back from its word, and a word read as an instruction with an
operand is that instruction's word (30_encoding.md R65, R67, R75). -/
def Obligations.DecodeAndEncodeAgree : Prop :=
  (∀ i : Instr, decode (encode i) = .ok i) ∧
  (∀ (w : CmdWord) (i : Instr), decode w = .ok i → (instrOpcode i).takesOperand = true → encode i = w) ∧
  (∀ (w : CmdWord) (i : Instr), decode w = .ok i → cmdOp (encode i) = cmdOp w)

/-- 30_encoding.md R66: `op` alone selects the row, the match/mask form says the same, and each of the 16 values of
`op` is either one of the nine assigned or one of the seven reserved. -/
def Obligations.OpAloneSelectsTheRow : Prop :=
  allOpcodes.map (fun op => (opcodeCode op).toNat) = [0x0, 0x1, 0x2, 0x3, 0x4, 0x8, 0x9, 0xA, 0xB] ∧
  (∀ (w : CmdWord) (op : Opcode), decode w = .ok (instrOf op (cmdArg w)) ↔ cmdOp w = opcodeCode op) ∧
  (∀ (w : CmdWord) (op : Opcode),
    cmdOp w = opcodeCode op ↔ w &&& 0xF00000000#36 = (opcodeCode op).zeroExtend 36 <<< 32) ∧
  (∀ w : CmdWord, (∃ e, decode w = .error e) ↔ (cmdOp w).toNat ∈ [0x5, 0x6, 0x7, 0xC, 0xD, 0xE, 0xF])

/-- 30_encoding.md R73: `arg` of the five operations without an operand is ignored. -/
def Obligations.IgnoredOperandIsIgnored : Prop :=
  ∀ w w' : CmdWord, cmdOp w = cmdOp w' → (cmdOp w).toNat ∈ [0x4, 0x8, 0x9, 0xA, 0xB] →
    decode w = decode w' ∧ ∀ s : State, execWord w s = execWord w' s

/-- 30_encoding.md R68: `rsp = status ++ data`, the word that `respond` builds; and the four status codes of R69. -/
def Obligations.ResponseWordFields : Prop :=
  (∀ (s : State) (st : Status) (d : Word), s.respond st d = .next { s with rsp := some (statusCode st ++ d) }) ∧
  (∀ (st : Status) (d : Word),
    rspStatusField (rspWord st d) = statusCode st ∧ rspDataField (rspWord st d) = d ∧
    (rspWord st d).toNat = (statusCode st).toNat * 2 ^ 32 + d.toNat) ∧
  statusCode .ok = 0#2 ∧ statusCode .done = 1#2 ∧ statusCode .invalidArgument = 2#2 ∧ statusCode .illegal = 3#2

/-- 30_encoding.md R75: a well-formed source command is assembled to `(op << 32) + arg`, a word that decodes to the
operation with the operand written. That any other command is not assembled, and that `<< 8` may follow the operand of
every operation that has one, are the model's choices (assumption log 9). -/
def Obligations.AssembledWordDecodes : Prop :=
  ∀ c : SourceCommand,
    (c.wellFormed = true →
      ∃ w, assemble c = some w ∧ w.toNat = (opcodeCode c.opcode).toNat * 2 ^ 32 + c.argValue ∧
        decode w = .ok (instrOf c.opcode (BitVec.ofNat 32 c.argValue))) ∧
    (c.wellFormed = false → assemble c = none)

/-- The example lines of 30_encoding.md R75 with their words. That blanks separate words, so that one may stand before a
comment, and that a line with a comment alone is no command, are the model's choices (assumption log 9). -/
def Obligations.ExampleLinesAssemble : Prop :=
  assembleLine "NEW 1000000".toList = .ok (some 0x0000F4240#36) ∧
  assembleLine "SET_ACCELERATION 1000 << 8".toList = .ok (some 0x10003E800#36) ∧
  assembleLine "SET_TARGET_STEP 0x3E8 ; steps".toList = .ok (some 0x2000003E8#36) ∧
  assembleLine "SET_TARGET_SPEED 800 << 8".toList = .ok (some 0x300032000#36) ∧
  assembleLine "NEXT".toList = .ok (some 0x400000000#36) ∧
  assembleLine "GET_SPEED".toList = .ok (some 0x900000000#36) ∧
  assembleLine "; no command".toList = .ok none

/-! ### The port -/

/-- A step runs the decoded instruction: the command at the head of the host's stream is taken, decoded and executed
whole (00_scope.md R12, R18; 20_memory.md R58). -/
def Obligations.StepRunsDecodedInstruction : Prop :=
  ∀ (s : State) (w : CmdWord) (later : List PortEvent) (i : Instr),
    s.inputs = .command w :: later → decode w = .ok i →
    step s = exec i { s with inputs := later, rsp := none }

/-- 60_exceptions.md R152 and 30_encoding.md R72: a reserved opcode answers `(ILLEGAL, 0)`, whatever `arg` holds and
whatever the state, and changes no register. -/
def Obligations.ReservedOpcodeReportsIllegal : Prop :=
  ∀ (s : State) (w : CmdWord) (later : List PortEvent),
    s.inputs = .command w :: later → (cmdOp w).toNat ∈ [0x5, 0x6, 0x7, 0xC, 0xD, 0xE, 0xF] →
    step s = .next { s with inputs := later, rsp := some 0x300000000#34 }

/-- 10_state.md R43: after hardware reset every register is 0, and after a successful `NEW(F)` the state is the same
except `TPS = F`. The reset edge of 70_reset_and_hazards.md R170 clears `rsp_valid` and shows `cmd_ready = 0`. -/
def Obligations.ResetAndNewLeaveZeroState : Prop :=
  State.reset.registers =
    { tps := 0#32, accel := 0#32, targetStep := 0#32, targetSpeed := 0#32, step := 0#32, speed := 0#32,
      delay := 0#32, rest := 0#32, rampIndex := 0#32, phase := .stopped, inputs := [], rsp := none } ∧
  (∀ (s : State) (later : List PortEvent), s.inputs = .reset :: later →
    s.cmdReady = false ∧
    step s = .next
      { tps := 0#32, accel := 0#32, targetStep := 0#32, targetSpeed := 0#32, step := 0#32, speed := 0#32,
        delay := 0#32, rest := 0#32, rampIndex := 0#32, phase := .stopped, inputs := later, rsp := none }) ∧
  (∀ (s : State) (F : Word), F.toNat ≠ 0 →
    exec (.new F) s = .next
      { tps := F, accel := 0#32, targetStep := 0#32, targetSpeed := 0#32, step := 0#32, speed := 0#32,
        delay := 0#32, rest := 0#32, rampIndex := 0#32, phase := .stopped, inputs := s.inputs, rsp := some 0#34 })

/-- 70_reset_and_hazards.md R171: what every operation answers in the reset state. -/
def Obligations.AnswersInResetState : Prop :=
  State.reset.cmdReady = true ∧ State.reset.rspValid = false ∧
  (∀ a : Word, exec (.setAcceleration a) State.reset = .next { State.reset with rsp := some 0x200000000#34 }) ∧
  (∀ v : Word, exec (.setTargetSpeed v) State.reset = .next { State.reset with rsp := some 0x200000000#34 }) ∧
  exec (.new 0#32) State.reset = .next { State.reset with rsp := some 0x200000000#34 } ∧
  (∀ F : Word, F ≠ 0#32 → exec (.new F) State.reset = .next { State.reset with tps := F, rsp := some 0#34 }) ∧
  (∀ T : Word, exec (.setTargetStep T) State.reset = .next { State.reset with targetStep := T, rsp := some 0#34 }) ∧
  exec .next State.reset = .next { State.reset with rsp := some 0x100000000#34 } ∧
  (∀ i ∈ [Instr.getStep, .getSpeed, .getDelay, .getPhase],
    exec i State.reset = .next { State.reset with rsp := some 0#34 }) ∧
  (∀ w : CmdWord, (cmdOp w).toNat ∈ [0x5, 0x6, 0x7, 0xC, 0xD, 0xE, 0xF] →
    execWord w State.reset = .next { State.reset with rsp := some 0x300000000#34 })

/-- 60_exceptions.md R166: between commands the block holds its registers. That `rsp` is cleared is the model's reading
of one response for each command (assumption log 2). -/
def Obligations.IdlePortHoldsRegisters : Prop :=
  ∀ s : State, s.inputs = [] → step s = .next { s with rsp := none }

/-- 60_exceptions.md R160, 20_memory.md R51 and 70_reset_and_hazards.md R170: every event has exactly one next state, never
a fault or a refusal; a command has exactly one response; a reset edge clears `rsp_valid`. The step takes the first event
of the host's stream if there is one (assumption log 1). That an idle port shows no response is the model's choice
(assumption log 2). -/
def Obligations.EveryEventIsAnswered : Prop :=
  ∀ s : State, ∃ t, step s = .next t ∧ t.inputs = s.inputs.tail ∧
    (t.rspValid = true ↔ ∃ w later, s.inputs = .command w :: later)

/-! ### The configuration operations -/

/-- 40_configuration.md R85 and R86: `NEW`. -/
def Obligations.NewReinitialisesTheBlock : Prop :=
  (∀ F : Word, decode (0x0#4 ++ F) = .ok (.new F)) ∧
  (∀ (s : State) (F : Word), F ≠ 0#32 →
    exec (.new F) s = .next
      { s with
        tps := F, accel := 0#32, targetStep := 0#32, targetSpeed := 0#32, step := 0#32, speed := 0#32,
        delay := 0#32, rest := 0#32, rampIndex := 0#32, phase := .stopped, rsp := some 0#34 }) ∧
  (∀ s : State, exec (.new 0#32) s = .next { s with rsp := some 0x200000000#34 })

/-- 40_configuration.md R87: `SET_ACCELERATION`, all its paths; every register not named keeps its value. -/
def Obligations.SetAccelerationWholeRule : Prop :=
  (∀ a : Word, decode (0x1#4 ++ a) = .ok (.setAcceleration a)) ∧
  (∀ (s : State) (a : Word),
    (a.toInt ≤ 0 ∨ firstDelay s.tps.toNat a.toNat < 256 ∨ firstDelay s.tps.toNat a.toNat > 4294967295) →
    exec (.setAcceleration a) s = .next { s with rsp := some 0x200000000#34 }) ∧
  (∀ (s : State) (a : Word),
    0 < a.toInt → 256 ≤ firstDelay s.tps.toNat a.toNat → firstDelay s.tps.toNat a.toNat ≤ 4294967295 →
    s.phase = .stopped →
    exec (.setAcceleration a) s = .next
      { s with accel := a, delay := BitVec.ofNat 32 (firstDelay s.tps.toNat a.toNat), rsp := some 0#34 }) ∧
  (∀ (s : State) (a : Word),
    0 < a.toInt → 256 ≤ firstDelay s.tps.toNat a.toNat → firstDelay s.tps.toNat a.toNat ≤ 4294967295 →
    s.phase ≠ .stopped →
    exec (.setAcceleration a) s = .next
      { s with
        accel := a
        rampIndex := BitVec.ofNat 32 (min 1073741823 (s.speed.toNat * s.speed.toNat / (512 * a.toNat) + 1))
        rest := 0#32
        rsp := some 0#34 })

/-- 40_configuration.md R88: exactly which operands SET_ACCELERATION rejects, that all are rejected while `TPS = 0`, and
the accepted sets the rule lists for three timer rates. -/
def Obligations.AccelerationGuardIsExact : Prop :=
  (∀ (s : State) (a : Word),
    exec (.setAcceleration a) s = .next { s with rsp := some 0x200000000#34 } ↔
      (a.toNat = 0 ∨ 2 ^ 31 ≤ a.toNat ∨ firstDelay s.tps.toNat a.toNat < 256 ∨
        firstDelay s.tps.toNat a.toNat > 2 ^ 32 - 1)) ∧
  (∀ (s : State) (a : Word), s.tps.toNat = 0 →
    exec (.setAcceleration a) s = .next { s with rsp := some 0x200000000#34 }) ∧
  (∀ (s : State) (a : Word), s.tps.toNat = 1000 →
    ((∃ t, exec (.setAcceleration a) s = .next t ∧ t.rsp = some 0#34) ↔
      1 ≤ a.toNat ∧ a.toNat ≤ 233971712)) ∧
  (∀ (s : State) (a : Word), s.tps.toNat = 1000000 →
    ((∃ t, exec (.setAcceleration a) s = .next t ∧ t.rsp = some 0#34) ↔
      1 ≤ a.toNat ∧ a.toNat ≤ 2147483647)) ∧
  (∀ (s : State) (a : Word), s.tps.toNat = 72000000 →
    ((∃ t, exec (.setAcceleration a) s = .next t ∧ t.rsp = some 0#34) ↔
      4310 ≤ a.toNat ∧ a.toNat ≤ 2147483647))

/-- 40_configuration.md R89: at rest `DELAY` becomes the first delay of the acceleration set, and `RAMP_INDEX` and `REST`
are 0 and stay 0. -/
def Obligations.AccelerationAtRestSetsSentinel : Prop :=
  ∀ (s : State) (a : Word), s.Inv → s.phase = .stopped →
    0 < a.toInt → 256 ≤ firstDelay s.tps.toNat a.toNat → firstDelay s.tps.toNat a.toNat ≤ 4294967295 →
    ∃ t, exec (.setAcceleration a) s = .next t ∧ t.accel = a ∧
      t.delay.toNat = firstDelay s.tps.toNat a.toNat ∧ t.rampIndex.toNat = 0 ∧ t.rest.toNat = 0 ∧
      t.phase = .stopped ∧ t.speed = s.speed ∧ t.step = s.step ∧ t.rsp = some 0#34

/-- 40_configuration.md R90: while moving, the ramp index is re-derived from the present speed and the remainder
cleared; the products fit; the two examples. -/
def Obligations.AccelerationWhileMovingResyncs : Prop :=
  (∀ (s : State) (a : Word), s.Inv → s.phase ≠ .stopped →
    0 < a.toInt → 256 ≤ firstDelay s.tps.toNat a.toNat → firstDelay s.tps.toNat a.toNat ≤ 4294967295 →
    ∃ t, exec (.setAcceleration a) s = .next t ∧
      t.rampIndex.toNat = min 1073741823 (s.speed.toNat ^ 2 / (512 * a.toNat) + 1) ∧ t.rest.toNat = 0 ∧
      t = { s with accel := a, rampIndex := t.rampIndex, rest := t.rest, rsp := some 0#34 } ∧
      s.speed.toNat ^ 2 < 2 ^ 62 ∧ 512 * a.toNat < 2 ^ 40) ∧
  114196 ^ 2 / (512 * 512000) + 1 = 50 ∧ 114196 ^ 2 / (512 * 256000) + 1 = 100

/-- 40_configuration.md R91: setting the value already in force at rest changes nothing. -/
def Obligations.SameAccelerationAtRestChangesNothing : Prop :=
  ∀ s : State, s.Inv → s.phase = .stopped → s.accel.toNat ≠ 0 →
    exec (.setAcceleration s.accel) s = .next { s with rsp := some 0#34 }

/-- 40_configuration.md R92: `SET_TARGET_STEP` writes `TARGET_STEP` and nothing else, in every state, for every
operand. -/
def Obligations.SetTargetStepWritesTargetStepOnly : Prop :=
  (∀ T : Word, decode (0x2#4 ++ T) = .ok (.setTargetStep T)) ∧
  (∀ (s : State) (T : Word), exec (.setTargetStep T) s = .next { s with targetStep := T, rsp := some 0#34 })

/-- 40_configuration.md R93 and R95: `SET_TARGET_SPEED` writes `TARGET_SPEED` and nothing else, at rest and moving. -/
def Obligations.SetTargetSpeedWritesTargetSpeedOnly : Prop :=
  (∀ v : Word, decode (0x3#4 ++ v) = .ok (.setTargetSpeed v)) ∧
  (∀ (s : State) (v : Word),
    (v.toInt ≤ 0 ∨ cruiseDelay s.tps.toNat v.toNat < 256 ∨ cruiseDelay s.tps.toNat v.toNat > 4294967295) →
    exec (.setTargetSpeed v) s = .next { s with rsp := some 0x200000000#34 }) ∧
  (∀ (s : State) (v : Word),
    0 < v.toInt → 256 ≤ cruiseDelay s.tps.toNat v.toNat → cruiseDelay s.tps.toNat v.toNat ≤ 4294967295 →
    exec (.setTargetSpeed v) s = .next { s with targetSpeed := v, rsp := some 0#34 })

/-- 40_configuration.md R94: exactly which operands SET_TARGET_SPEED rejects, that all are rejected while `TPS = 0`, and
the accepted sets the rule lists for three timer rates. -/
def Obligations.SpeedGuardIsExact : Prop :=
  (∀ (s : State) (v : Word),
    exec (.setTargetSpeed v) s = .next { s with rsp := some 0x200000000#34 } ↔
      (2 ^ 31 ≤ v.toNat ∨ v.toNat = 0 ∨ cruiseDelay s.tps.toNat v.toNat > 2 ^ 32 - 1 ∨
        cruiseDelay s.tps.toNat v.toNat < 256)) ∧
  (∀ (s : State) (v : Word), s.tps.toNat = 0 →
    exec (.setTargetSpeed v) s = .next { s with rsp := some 0x200000000#34 }) ∧
  (∀ (s : State) (v : Word), s.tps.toNat = 1000 →
    ((∃ t, exec (.setTargetSpeed v) s = .next t ∧ t.rsp = some 0#34) ↔ 1 ≤ v.toNat ∧ v.toNat ≤ 257003)) ∧
  (∀ (s : State) (v : Word), s.tps.toNat = 1000000 →
    ((∃ t, exec (.setTargetSpeed v) s = .next t ∧ t.rsp = some 0#34) ↔ 16 ≤ v.toNat ∧ v.toNat ≤ 257003921)) ∧
  (∀ (s : State) (v : Word), s.tps.toNat = 72000000 →
    ((∃ t, exec (.setTargetSpeed v) s = .next t ∧ t.rsp = some 0#34) ↔ 1099 ≤ v.toNat ∧ v.toNat ≤ 2147483647))

/-- 60_exceptions.md R150 and R151: `INVALID_ARGUMENT` is raised by three operations and no other, exactly under the
conditions of the table, with `data = 0` and no register written; while `TPS = 0` both setters always raise it. -/
def Obligations.InvalidArgumentExactlyWhenListed : Prop :=
  (∀ (i : Instr) (s t : State), exec i s = .next t →
    ((t.rspStatus = some 2#2 ↔
      match i with
      | .new F => F.toNat = 0
      | .setAcceleration a =>
        a.toNat = 0 ∨ 2 ^ 31 ≤ a.toNat ∨ firstDelay s.tps.toNat a.toNat < 256 ∨
          firstDelay s.tps.toNat a.toNat > 2 ^ 32 - 1
      | .setTargetSpeed v =>
        2 ^ 31 ≤ v.toNat ∨ v.toNat = 0 ∨ cruiseDelay s.tps.toNat v.toNat > 2 ^ 32 - 1 ∨
          cruiseDelay s.tps.toNat v.toNat < 256
      | .setTargetStep _ | .next | .getStep | .getSpeed | .getDelay | .getPhase => False) ∧
    (t.rspStatus = some 2#2 → t = { s with rsp := some 0x200000000#34 }))) ∧
  (∀ (s t : State) (a : Word), s.tps.toNat = 0 →
    (exec (.setAcceleration a) s = .next t ∨ exec (.setTargetSpeed a) s = .next t) → t.rspStatus = some 2#2)

/-- 40_configuration.md R97: a rejected configuration operation has written nothing, its rejection depends on the operand
and on `TPS` alone, and the same operand presented again is rejected again. -/
def Obligations.RejectionIsAtomic : Prop :=
  (∀ (i : Instr) (s t : State), exec i s = .next t → t.rspStatus = some 2#2 →
    t = { s with rsp := t.rsp } ∧ exec i t = .next t) ∧
  (∀ (i : Instr) (s s' t t' : State), s.tps = s'.tps → exec i s = .next t → exec i s' = .next t' →
    (t.rspStatus = some 2#2 ↔ t'.rspStatus = some 2#2))

/-- 60_exceptions.md R158: an error is not remembered: the next command is executed exactly as if the failed one had not
been sent. -/
def Obligations.ErrorsLeaveNoTrace : Prop :=
  ∀ (w : CmdWord) (s t : State), execWord w s = .next t →
    (t.rspStatus = some 2#2 ∨ t.rspStatus = some 3#2) →
    t.registers = s.registers ∧ ∀ w' : CmdWord, execWord w' t = execWord w' s

/-- 40_configuration.md R98: no configuration operation takes a step or returns a delay, none but NEW changes `STEP`,
and the two guarded setters may be issued in either order. -/
def Obligations.SettersCommuteAndTakeNoStep : Prop :=
  (∀ (i : Instr) (s t : State),
    instrOpcode i ∈ [Opcode.setAcceleration, .setTargetStep, .setTargetSpeed] → exec i s = .next t →
    t.step = s.step ∧ t.speed = s.speed ∧ t.phase = s.phase ∧ t.rspData = some 0#32) ∧
  (∀ (s t u t' u' : State) (a v : Word),
    exec (.setAcceleration a) s = .next t → exec (.setTargetSpeed v) t = .next u →
    exec (.setTargetSpeed v) s = .next t' → exec (.setAcceleration a) t' = .next u' →
    u.registers = u'.registers ∧ t.rsp = u'.rsp ∧ u.rsp = t'.rsp)

/-- Every operation but NEXT leaves, given twice in a row, what it leaves given once (20_memory.md R55), and so does NEXT
once it has answered DONE (41_stepping.md R107). R55 says it of SET_ACCELERATION at rest, and while moving as to `ACCEL` but
not as to `RAMP_INDEX` and `REST`; there the clause follows from 40_configuration.md R87 and R90, since a second call
derives the same index from the unchanged speed. How the two are read together: assumption log 12 (DEDUCED). -/
def Obligations.RepeatedCommandsAreIdempotent : Prop :=
  (∀ (i : Instr) (s t : State), i ≠ .next → exec i s = .next t → exec i t = .next t) ∧
  (∀ s t : State, exec .next s = .next t → t.rspStatus = some 1#2 → exec .next t = .next t)

/-! ### Telemetry -/

/-- 42_telemetry.md R140 to R144: each read answers `(OK, register)` in every state and writes no register. -/
def Obligations.ReadsAnswerTheirRegister : Prop :=
  (∀ arg : Word, decode (0x8#4 ++ arg) = .ok .getStep ∧ decode (0x9#4 ++ arg) = .ok .getSpeed ∧
    decode (0xA#4 ++ arg) = .ok .getDelay ∧ decode (0xB#4 ++ arg) = .ok .getPhase) ∧
  (∀ s : State,
    exec .getStep s = .next { s with rsp := some (0#2 ++ s.step) } ∧
    exec .getSpeed s = .next { s with rsp := some (0#2 ++ s.speed) } ∧
    exec .getDelay s = .next { s with rsp := some (0#2 ++ s.delay) } ∧
    exec .getPhase s = .next
      { s with
        rsp := some (0#2 ++ match s.phase with
          | .stopped => 0#32
          | .accelerating => 1#32
          | .cruising => 2#32
          | .decelerating => 3#32) })

/-- 42_telemetry.md R145: reads placed anywhere in a host's stream leave every register as it is without them, and what
an operation answers depends on the registers alone. -/
def Obligations.ReadsDoNotDisturbTheRamp : Prop :=
  (∀ (s : State) (events : List PortEvent) (isRead : PortEvent → Bool),
    (∀ e, isRead e = true ↔ ∃ w, e = .command w ∧ (cmdOp w).toNat ∈ [0x8, 0x9, 0xA, 0xB]) →
    ∃ t u,
      Sys2Proof.core.run events.length { s with inputs := events } = .next t ∧
      Sys2Proof.core.run (events.filter (fun e => !isRead e)).length
        { s with inputs := events.filter (fun e => !isRead e) } = .next u ∧
      t.registers = u.registers) ∧
  (∀ (w : CmdWord) (s s' t t' : State), s.registers = s'.registers →
    execWord w s = .next t → execWord w s' = .next t' → t.rsp = t'.rsp ∧ t.registers = t'.registers)

/-! ### NEXT -/

/-- 41_stepping.md R106: an unconfigured block answers `(DONE, DELAY)` and writes nothing; in the states a run reaches it
is at rest and the datum is the first delay. -/
def Obligations.NextUnconfiguredAnswersDone : Prop :=
  (∀ s : State, (s.accel = 0#32 ∨ s.targetSpeed = 0#32) →
    exec .next s = .next { s with rsp := some (1#2 ++ s.delay) }) ∧
  (∀ s : State, s.Inv → (s.accel = 0#32 ∨ s.targetSpeed = 0#32) →
    s.phase = .stopped ∧ s.delay.toNat = firstDelay s.tps.toNat s.accel.toNat)

/-- 41_stepping.md R107: the terminal state. (a) at rest nothing is written; (b) at the lowest ordinal with the target at
or behind the step the block comes to rest without a step. -/
def Obligations.NextInTerminalStateAnswersDone : Prop :=
  (∀ s : State, s.Inv → s.Configured → s.targetStep.toNat ≤ s.step.toNat → s.phase = .stopped →
    exec .next s = .next { s with rsp := some (1#2 ++ s.delay) } ∧
    s.delay.toNat = firstDelay s.tps.toNat s.accel.toNat) ∧
  (∀ s : State, s.Inv → s.targetStep.toNat ≤ s.step.toNat → s.phase ≠ .stopped → s.rampIndex.toNat = 1 →
    exec .next s = .next
      { s with
        phase := .stopped
        speed := 0#32
        rampIndex := 0#32
        rest := 0#32
        delay := BitVec.ofNat 32 (firstDelay s.tps.toNat s.accel.toNat)
        rsp := some (1#2 ++ BitVec.ofNat 32 (firstDelay s.tps.toNat s.accel.toNat)) })

/-- 41_stepping.md R113: the first step from rest runs at the longer of the first delay and the cruise delay. -/
def Obligations.NextSeedsFromRest : Prop :=
  ∀ s : State, s.Inv → s.Configured → s.phase = .stopped → s.step.toNat < s.targetStep.toNat →
    ∃ t, exec .next s = .next t ∧
      s.TookStep t
        (max (firstDelay s.tps.toNat s.accel.toNat) (cruiseDelay s.tps.toNat s.targetSpeed.toNat)) 1 0
        (if firstDelay s.tps.toNat s.accel.toNat > cruiseDelay s.tps.toNat s.targetSpeed.toNat then .accelerating
         else .cruising)

/-- 41_stepping.md R119 and R114: an acceleration step that stays slower than the cap; the quotient is below `c`, so the
new delay is positive. The remainder is carried only from Accelerating (R125 (a)). -/
def Obligations.NextAccelerates : Prop :=
  ∀ (s : State) (c n r : Nat), s.Inv → s.phase ≠ .stopped → c = s.delay.toNat → n = s.rampIndex.toNat →
    r = (if s.phase = .accelerating then s.rest.toNat else 0) →
    s.step.toNat + (n + 1) ≤ s.targetStep.toNat →
    cruiseDelay s.tps.toNat s.targetSpeed.toNat < c →
    cruiseDelay s.tps.toNat s.targetSpeed.toNat < c - (2 * c + r) / (4 * n + 1) →
    (2 * c + r) / (4 * n + 1) < c ∧
    ∃ t, exec .next s = .next t ∧
      s.TookStep t (c - (2 * c + r) / (4 * n + 1)) (min 1073741823 (n + 1)) ((2 * c + r) % (4 * n + 1)) .accelerating

/-- 41_stepping.md R120: an acceleration step that would reach or pass the cap returns the cruise delay and cruises; `n`
keeps its incremented value. -/
def Obligations.NextClampsAtTheCap : Prop :=
  ∀ (s : State) (c n r : Nat), s.Inv → s.phase ≠ .stopped → c = s.delay.toNat → n = s.rampIndex.toNat →
    r = (if s.phase = .accelerating then s.rest.toNat else 0) →
    s.step.toNat + (n + 1) ≤ s.targetStep.toNat →
    cruiseDelay s.tps.toNat s.targetSpeed.toNat < c →
    c - (2 * c + r) / (4 * n + 1) ≤ cruiseDelay s.tps.toNat s.targetSpeed.toNat →
    ∃ t, exec .next s = .next t ∧
      s.TookStep t (cruiseDelay s.tps.toNat s.targetSpeed.toNat) (min 1073741823 (n + 1)) 0 .cruising

/-- 41_stepping.md R110, R111 and R121: inside the braking distance NEXT takes one unclamped deceleration step, whatever
the cap; a delay above 32 bits saturates. The remainder is carried only from Decelerating (R125 (a)). -/
def Obligations.NextBrakesInsideBrakingDistance : Prop :=
  ∀ (s : State) (c n r : Nat), s.Inv → c = s.delay.toNat → n = s.rampIndex.toNat →
    r = (if s.phase = .decelerating then s.rest.toNat else 0) →
    2 ≤ n → s.targetStep.toNat ≤ s.step.toNat + (n - 1) →
    ∃ t, exec .next s = .next t ∧
      s.TookStep t (min 4294967295 (c + (2 * c + r) / (4 * (n - 1) - 1))) (n - 1)
        ((2 * c + r) % (4 * (n - 1) - 1)) .decelerating

/-- 41_stepping.md R112 and R122: outside the braking distance and faster than the cap, NEXT decelerates with the cruise
delay as floor, in one step at ordinal 1. -/
def Obligations.NextDeceleratesToTheCap : Prop :=
  ∀ (s : State) (c n r cd : Nat), s.Inv → s.phase ≠ .stopped → c = s.delay.toNat → n = s.rampIndex.toNat →
    cd = cruiseDelay s.tps.toNat s.targetSpeed.toNat →
    r = (if s.phase = .decelerating then s.rest.toNat else 0) →
    s.step.toNat + n ≤ s.targetStep.toNat → c < cd →
    (2 ≤ n → c + (2 * c + r) / (4 * (n - 1) - 1) < cd →
      ∃ t, exec .next s = .next t ∧
        s.TookStep t (c + (2 * c + r) / (4 * (n - 1) - 1)) (n - 1) ((2 * c + r) % (4 * (n - 1) - 1)) .decelerating) ∧
    (2 ≤ n → cd ≤ c + (2 * c + r) / (4 * (n - 1) - 1) →
      ∃ t, exec .next s = .next t ∧ s.TookStep t cd (n - 1) 0 .cruising) ∧
    (n = 1 → ∃ t, exec .next s = .next t ∧ s.TookStep t cd 1 0 .cruising)

/-- 41_stepping.md R117 and R115: at the cap, and on the one call before the point of no return of a ramp slower than the
cap, NEXT repeats the delay and cruises. -/
def Obligations.NextHolds : Prop :=
  ∀ (s : State) (c n : Nat), s.Inv → s.phase ≠ .stopped → c = s.delay.toNat → n = s.rampIndex.toNat →
    (c = cruiseDelay s.tps.toNat s.targetSpeed.toNat ∧ s.step.toNat + n ≤ s.targetStep.toNat ∨
      cruiseDelay s.tps.toNat s.targetSpeed.toNat < c ∧ s.step.toNat + n = s.targetStep.toNat) →
    ∃ t, exec .next s = .next t ∧ s.TookStep t c n 0 .cruising

/-- 41_stepping.md R109: no operation other than NEXT starts a ramp, and NEXT starts one only in a configured block whose
target lies ahead. -/
def Obligations.OnlyNextStartsARamp : Prop :=
  ∀ (i : Instr) (s t : State), exec i s = .next t → s.phase = .stopped → t.phase ≠ .stopped →
    i = .next ∧ s.Configured ∧ t.rspStatus = some 0#2 ∧ (s.Inv → s.step.toNat < s.targetStep.toNat)

/-- 41_stepping.md R133 (a), one step of it: while Accelerating the delay does not grow, and it shrinks where the quotient
is at least 1; while Decelerating it does not shrink. -/
def Obligations.DelayIsMonotoneInEachPhase : Prop :=
  ∀ s t : State, s.Inv → s.phase ≠ .stopped → exec .next s = .next t →
    (t.phase = .accelerating → t.delay.toNat ≤ s.delay.toNat) ∧
    (t.phase = .accelerating → 4 * s.rampIndex.toNat + 1 ≤ 2 * s.delay.toNat → t.delay.toNat < s.delay.toNat) ∧
    (t.phase = .decelerating → s.delay.toNat ≤ t.delay.toNat)

/-! ### Arithmetic -/

/-- 00_scope.md R14: `isqrt(q)` is the unique integer square root, below `2^30` for `q < 2^60`. -/
def Obligations.IsqrtIsTheIntegerSquareRoot : Prop :=
  ∀ q : Nat, isqrt q * isqrt q ≤ q ∧ q < (isqrt q + 1) * (isqrt q + 1) ∧
    (∀ s : Nat, s * s ≤ q → q < (s + 1) * (s + 1) → s = isqrt q) ∧ (q < 2 ^ 60 → isqrt q < 2 ^ 30)

/-- 00_scope.md R17: `sx32` is the two's-complement reading. -/
def Obligations.SignedReadingIsTwosComplement : Prop :=
  ∀ v : Word, sx32 v = v.toInt ∧ (v.toNat < 2 ^ 31 → sx32 v = v.toNat) ∧
    (2 ^ 31 ≤ v.toNat → sx32 v = (v.toNat : Int) - 4294967296)

/-- 10_state.md R35: the pseudocode of the seed formula, with the square root of the library for `isqrt`, its bounds and its
worked example. -/
def Obligations.FirstDelayFormula : Prop :=
  (∀ F A : Nat, A ≠ 0 →
    firstDelay F A = F * Nat.sqrt (913952 * 2 ^ 40 / A) / 1000 / 256 ∧
    913952 * 2 ^ 40 / A < 2 ^ 60 ∧ Nat.sqrt (913952 * 2 ^ 40 / A) < 2 ^ 30 ∧
    (F < 2 ^ 32 → F * Nat.sqrt (913952 * 2 ^ 40 / A) < 2 ^ 62)) ∧
  (∀ F : Nat, firstDelay F 0 = 0) ∧
  913952 * 2 ^ 40 / 256000 = 3925393950113 ∧ isqrt 3925393950113 = 1981260 ∧
  1000000 * 1981260 / 1000 = 1981260000 ∧ firstDelay 1000000 256000 = 7739296

/-- 10_state.md R36: the cruise delay is `F * 2^16 / V` rounded up, so that the speed recomputed from it never exceeds
`V`; it is 0 for `V = 0`; its worked example. -/
def Obligations.CruiseDelayIsTheCeiling : Prop :=
  (∀ F V : Nat, V ≠ 0 →
    F * 65536 ≤ V * cruiseDelay F V ∧ (∀ d : Nat, F * 65536 ≤ V * d → cruiseDelay F V ≤ d) ∧
    F * 65536 / cruiseDelay F V ≤ V ∧ (F < 2 ^ 32 → F * 65536 < 2 ^ 48)) ∧
  (∀ F : Nat, cruiseDelay F 0 = 0) ∧
  cruiseDelay 1000000 204800 = 320000

/-- 10_state.md R37: the speed of a delay is exactly the cap at the cruise delay and the truncated quotient elsewhere, and
no delay at or above the cruise delay gives a speed above the cap. -/
def Obligations.SpeedOfDelayRespectsTheCap : Prop :=
  ∀ F V c : Nat, 1 ≤ c →
    speedOf F V c = (if c = cruiseDelay F V then V else F * 65536 / c) ∧
    (V ≠ 0 → cruiseDelay F V ≤ c → speedOf F V c ≤ V)

/-- 41_stepping.md R127: every intermediate fits 64 unsigned bits, so that the recurrence, the derived values, the
resynchronisation and the counters computed over 64-bit words agree with the exact integers. The acceleration clauses hold
from ordinal 1 on (R119), the deceleration clauses from ordinal 2 on (R121), and `speed_of` is given for a delay of at
least 1 (10_state.md R37). The root of `first_delay` is the one 64-bit word below `2^32` with
`w * w <= q < (w + 1) * (w + 1)` over 64-bit words. -/
def Obligations.SixtyFourBitArithmeticAgrees : Prop :=
  ∀ F A V c r n v s T : Nat, F < 2 ^ 32 → 1 ≤ A → A < 2 ^ 31 → 1 ≤ V → V < 2 ^ 31 → c < 2 ^ 32 → r < 2 ^ 32 →
    1 ≤ n → n < 2 ^ 30 → v < 2 ^ 31 → s < 2 ^ 32 → T < 2 ^ 32 →
    (F * 2 ^ 16 < 2 ^ 48 ∧ 2 * c + r < 2 ^ 34 ∧ 4 * n + 1 < 2 ^ 32 ∧ 913952 * 2 ^ 40 / A < 2 ^ 60 ∧
      F * isqrt (913952 * 2 ^ 40 / A) < 2 ^ 62 ∧ v * v < 2 ^ 62 ∧ 512 * A < 2 ^ 40) ∧
    ((2#64 * wide c + wide r) / (4#64 * wide n + 1#64)).toNat = (2 * c + r) / (4 * n + 1) ∧
    ((2#64 * wide c + wide r) % (4#64 * wide n + 1#64)).toNat = (2 * c + r) % (4 * n + 1) ∧
    ((2 * c + r) / (4 * n + 1) ≤ c →
      (wide c - (2#64 * wide c + wide r) / (4#64 * wide n + 1#64)).toNat = c - (2 * c + r) / (4 * n + 1)) ∧
    (2 ≤ n →
      c + (2 * c + r) / (4 * (n - 1) - 1) < 2 ^ 32 + 2 ^ 34 ∧
      (wide c + (2#64 * wide c + wide r) / (4#64 * (wide n - 1#64) - 1#64)).toNat =
        c + (2 * c + r) / (4 * (n - 1) - 1) ∧
      ((2#64 * wide c + wide r) % (4#64 * (wide n - 1#64) - 1#64)).toNat = (2 * c + r) % (4 * (n - 1) - 1)) ∧
    (wide n + 1#64).toNat = n + 1 ∧ (wide s + 1#64).toNat = s + 1 ∧ (s ≤ T → (wide T - wide s).toNat = T - s) ∧
    (((wide F <<< 16) + wide V - 1#64) / wide V).toNat = cruiseDelay F V ∧
    (1 ≤ c →
      (if wide c = ((wide F <<< 16) + wide V - 1#64) / wide V then wide V else (wide F <<< 16) / wide c).toNat =
        speedOf F V c) ∧
    ((913952#64 <<< 40) / wide A).toNat = 913952 * 2 ^ 40 / A ∧
    (∀ w : BitVec 64, w.toNat < 2 ^ 32 →
      ((w * w ≤ (913952#64 <<< 40) / wide A ∧ (913952#64 <<< 40) / wide A < (w + 1#64) * (w + 1#64)) ↔
        w.toNat = isqrt (913952 * 2 ^ 40 / A))) ∧
    ((wide F * wide (isqrt (913952 * 2 ^ 40 / A)) / 1000#64) >>> 8).toNat = firstDelay F A ∧
    (wide v * wide v / (512#64 * wide A) + 1#64).toNat = v * v / (512 * A) + 1

/-! ### The whole machine -/

/-- 10_state.md R33: which operation may write which register; the host's stream is written by none. -/
def Obligations.RegistersAreWrittenAsTheTableSays : Prop :=
  ∀ (i : Instr) (s t : State), exec i s = .next t →
    (t.tps ≠ s.tps → instrOpcode i ∈ [Opcode.new]) ∧
    (t.accel ≠ s.accel → instrOpcode i ∈ [Opcode.new, .setAcceleration]) ∧
    (t.targetStep ≠ s.targetStep → instrOpcode i ∈ [Opcode.new, .setTargetStep]) ∧
    (t.targetSpeed ≠ s.targetSpeed → instrOpcode i ∈ [Opcode.new, .setTargetSpeed]) ∧
    (t.step ≠ s.step → instrOpcode i ∈ [Opcode.new, .next]) ∧
    (t.speed ≠ s.speed → instrOpcode i ∈ [Opcode.new, .next]) ∧
    (t.delay ≠ s.delay →
      instrOpcode i ∈ [Opcode.new, .next] ∨ instrOpcode i = .setAcceleration ∧ s.phase = .stopped) ∧
    (t.rest ≠ s.rest →
      instrOpcode i ∈ [Opcode.new, .next] ∨ instrOpcode i = .setAcceleration ∧ s.phase ≠ .stopped) ∧
    (t.rampIndex ≠ s.rampIndex →
      instrOpcode i ∈ [Opcode.new, .next] ∨ instrOpcode i = .setAcceleration ∧ s.phase ≠ .stopped) ∧
    (t.phase ≠ s.phase → instrOpcode i ∈ [Opcode.new, .next]) ∧
    t.inputs = s.inputs

/-- The reset state meets the invariant (10_state.md R38, R43). -/
def Obligations.ResetMeetsTheInvariant : Prop := State.reset.Inv

/-- Every step keeps the invariant: `PHASE = 0` iff `RAMP_INDEX = 0`, the registers at rest (10_state.md R38), and the
ranges of 10_state.md R22, R24, R26, R27, R29, R30. -/
def Obligations.EveryStepKeepsTheInvariant : Prop :=
  ∀ s t : State, s.Inv → step s = .next t → t.Inv

/-- Every run is safe and keeps the invariant: whatever the host presents, `n` events are answered one after the other
without fault or refusal (60_exceptions.md R160, 00_scope.md R18). -/
def Obligations.EveryRunIsSafe : Prop :=
  ∀ (n : Nat) (s : State), s.Inv → SafeRun n s ∧
    ∃ t, Sys2Proof.core.run n s = .next t ∧ t.Inv ∧ t.inputs = s.inputs.drop n

/-- 10_state.md R39 (a): as long as the cap is not lowered below the running speed, NEXT never returns a delay shorter
than the cruise delay and `SPEED` never exceeds `TARGET_SPEED`. -/
def Obligations.SpeedStaysWithinTheCap : Prop :=
  ∀ s t : State, s.Inv → s.WithinCap → exec .next s = .next t → t.WithinCap ∧ t.speed.toNat ≤ t.targetSpeed.toNat

/-- 41_stepping.md R133 (c): as long as the target is not moved inside the braking distance, NEXT keeps it outside, `STEP`
never exceeds `TARGET_STEP`, and the block comes to rest exactly on the target. -/
def Obligations.UndisturbedRampNeverOvershoots : Prop :=
  ∀ s t : State, s.Inv → s.OnTrack → exec .next s = .next t →
    t.OnTrack ∧ t.step.toNat ≤ t.targetStep.toNat ∧
    (s.phase ≠ .stopped → t.phase = .stopped → t.step.toNat = t.targetStep.toNat)

/-- 41_stepping.md R110: on an undisturbed ramp the point of no return holds with equality once it holds, each braking
step lowers both sides by one, and the last one ends on the target. -/
def Obligations.PointOfNoReturnKeepsEquality : Prop :=
  ∀ s t : State, s.Inv → s.OnTrack → s.Braking → exec .next s = .next t →
    s.targetStep.toNat = s.step.toNat + (s.rampIndex.toNat - 1) ∧
    (s.rampIndex.toNat = 2 → t.phase = .stopped ∧ t.step.toNat = t.targetStep.toNat) ∧
    (2 < s.rampIndex.toNat → t.phase = .decelerating ∧ t.OnTrack ∧ t.Braking ∧
      t.rampIndex.toNat + 1 = s.rampIndex.toNat ∧ t.targetStep.toNat = t.step.toNat + (t.rampIndex.toNat - 1))

/-- 41_stepping.md R133 (c): a configured block whose target is not inside the braking distance answers exactly
`TARGET_STEP - STEP` of the NEXTs presented to it with OK, each counting one step, is then at rest on the target, and
answers DONE to every further one. -/
def Obligations.RampTakesExactlyTheRemainingSteps : Prop :=
  ∀ (s : State) (m : Nat), s.Inv → s.Configured → s.OnTrack →
    s.inputs = List.replicate (s.targetStep.toNat - s.step.toNat + m) (.command 0x400000000#36) →
    (∀ j, 1 ≤ j → j ≤ s.targetStep.toNat - s.step.toNat →
      ∃ t, Sys2Proof.core.run j s = .next t ∧ t.rspStatus = some 0#2 ∧ t.step.toNat = s.step.toNat + j ∧
        (t.phase = .stopped ↔ t.step.toNat = s.targetStep.toNat)) ∧
    (∀ j, 1 ≤ j → j ≤ m →
      ∃ t, Sys2Proof.core.run (s.targetStep.toNat - s.step.toNat + j) s = .next t ∧ t.rspStatus = some 1#2 ∧
        t.phase = .stopped ∧ t.speed.toNat = 0 ∧ t.step.toNat = s.targetStep.toNat)

/-- 41_stepping.md R111: inside the braking distance the ramp comes to rest after exactly `n - 1` more steps, at
`STEP = s + n - 1`, every step but the last in phase Decelerating, one ordinal per step. -/
def Obligations.BrakingTakesIndexMinusOneSteps : Prop :=
  ∀ (s : State) (later : List PortEvent), s.Inv → s.Braking →
    s.step.toNat + (s.rampIndex.toNat - 1) ≤ 4294967295 →
    s.inputs = List.replicate (s.rampIndex.toNat - 1) (.command 0x400000000#36) ++ later →
    ∀ j, 1 ≤ j → j ≤ s.rampIndex.toNat - 1 →
      ∃ t, Sys2Proof.core.run j s = .next t ∧ t.rspStatus = some 0#2 ∧ t.step.toNat = s.step.toNat + j ∧
        (j < s.rampIndex.toNat - 1 → t.phase = .decelerating ∧ t.rampIndex.toNat + j = s.rampIndex.toNat) ∧
        (j = s.rampIndex.toNat - 1 → t.phase = .stopped ∧ t.speed.toNat = 0)
end

