-- ==== Sys2Proof/Laws/State.lean ====
section
/-! SUPPORT. One lemma per field per update of the state, each true by definition, so that no later proof unfolds a
record update. -/

namespace Sys2Proof.Machine

/-! ### Coming to rest -/

@[simp] theorem State.comeToRest_tps (s : State) : (s.comeToRest).tps = s.tps := rfl
@[simp] theorem State.comeToRest_accel (s : State) : (s.comeToRest).accel = s.accel := rfl
@[simp] theorem State.comeToRest_targetStep (s : State) : (s.comeToRest).targetStep = s.targetStep := rfl
@[simp] theorem State.comeToRest_targetSpeed (s : State) : (s.comeToRest).targetSpeed = s.targetSpeed := rfl
@[simp] theorem State.comeToRest_step (s : State) : (s.comeToRest).step = s.step := rfl
@[simp] theorem State.comeToRest_speed (s : State) : (s.comeToRest).speed = 0#32 := rfl
@[simp] theorem State.comeToRest_delay (s : State) : (s.comeToRest).delay = toReg s.seedDelay := rfl
@[simp] theorem State.comeToRest_rest (s : State) : (s.comeToRest).rest = 0#32 := rfl
@[simp] theorem State.comeToRest_rampIndex (s : State) : (s.comeToRest).rampIndex = 0#32 := rfl
@[simp] theorem State.comeToRest_phase (s : State) : (s.comeToRest).phase = .stopped := rfl
@[simp] theorem State.comeToRest_inputs (s : State) : (s.comeToRest).inputs = s.inputs := rfl
@[simp] theorem State.comeToRest_rsp (s : State) : (s.comeToRest).rsp = s.rsp := rfl

/-! ### The writes of a step -/

@[simp] theorem State.writeRampPoint_tps (s : State) (p : RampPoint) : (s.writeRampPoint p).tps = s.tps := rfl
@[simp] theorem State.writeRampPoint_accel (s : State) (p : RampPoint) : (s.writeRampPoint p).accel = s.accel := rfl
@[simp] theorem State.writeRampPoint_targetStep (s : State) (p : RampPoint) : (s.writeRampPoint p).targetStep = s.targetStep := rfl
@[simp] theorem State.writeRampPoint_targetSpeed (s : State) (p : RampPoint) : (s.writeRampPoint p).targetSpeed = s.targetSpeed := rfl
@[simp] theorem State.writeRampPoint_step (s : State) (p : RampPoint) : (s.writeRampPoint p).step = toReg s.stepAfter := rfl
@[simp] theorem State.writeRampPoint_speed (s : State) (p : RampPoint) : (s.writeRampPoint p).speed = toReg (speedOf (unsigned s.tps) (unsigned s.targetSpeed) p.delay) := rfl
@[simp] theorem State.writeRampPoint_delay (s : State) (p : RampPoint) : (s.writeRampPoint p).delay = toReg p.delay := rfl
@[simp] theorem State.writeRampPoint_rest (s : State) (p : RampPoint) : (s.writeRampPoint p).rest = toReg p.rest := rfl
@[simp] theorem State.writeRampPoint_rampIndex (s : State) (p : RampPoint) : (s.writeRampPoint p).rampIndex = toReg p.index := rfl
@[simp] theorem State.writeRampPoint_phase (s : State) (p : RampPoint) : (s.writeRampPoint p).phase = p.phase := rfl
@[simp] theorem State.writeRampPoint_inputs (s : State) (p : RampPoint) : (s.writeRampPoint p).inputs = s.inputs := rfl
@[simp] theorem State.writeRampPoint_rsp (s : State) (p : RampPoint) : (s.writeRampPoint p).rsp = s.rsp := rfl

/-! ### Taking an event -/

@[simp] theorem State.takeEvent_tps (s : State) : (s.takeEvent).tps = s.tps := rfl
@[simp] theorem State.takeEvent_accel (s : State) : (s.takeEvent).accel = s.accel := rfl
@[simp] theorem State.takeEvent_targetStep (s : State) : (s.takeEvent).targetStep = s.targetStep := rfl
@[simp] theorem State.takeEvent_targetSpeed (s : State) : (s.takeEvent).targetSpeed = s.targetSpeed := rfl
@[simp] theorem State.takeEvent_step (s : State) : (s.takeEvent).step = s.step := rfl
@[simp] theorem State.takeEvent_speed (s : State) : (s.takeEvent).speed = s.speed := rfl
@[simp] theorem State.takeEvent_delay (s : State) : (s.takeEvent).delay = s.delay := rfl
@[simp] theorem State.takeEvent_rest (s : State) : (s.takeEvent).rest = s.rest := rfl
@[simp] theorem State.takeEvent_rampIndex (s : State) : (s.takeEvent).rampIndex = s.rampIndex := rfl
@[simp] theorem State.takeEvent_phase (s : State) : (s.takeEvent).phase = s.phase := rfl
@[simp] theorem State.takeEvent_inputs (s : State) : (s.takeEvent).inputs = s.inputs.tail := rfl
@[simp] theorem State.takeEvent_rsp (s : State) : (s.takeEvent).rsp = none := rfl

/-! ### The idle port -/

@[simp] theorem State.idle_tps (s : State) : (s.idle).tps = s.tps := rfl
@[simp] theorem State.idle_accel (s : State) : (s.idle).accel = s.accel := rfl
@[simp] theorem State.idle_targetStep (s : State) : (s.idle).targetStep = s.targetStep := rfl
@[simp] theorem State.idle_targetSpeed (s : State) : (s.idle).targetSpeed = s.targetSpeed := rfl
@[simp] theorem State.idle_step (s : State) : (s.idle).step = s.step := rfl
@[simp] theorem State.idle_speed (s : State) : (s.idle).speed = s.speed := rfl
@[simp] theorem State.idle_delay (s : State) : (s.idle).delay = s.delay := rfl
@[simp] theorem State.idle_rest (s : State) : (s.idle).rest = s.rest := rfl
@[simp] theorem State.idle_rampIndex (s : State) : (s.idle).rampIndex = s.rampIndex := rfl
@[simp] theorem State.idle_phase (s : State) : (s.idle).phase = s.phase := rfl
@[simp] theorem State.idle_inputs (s : State) : (s.idle).inputs = s.inputs := rfl
@[simp] theorem State.idle_rsp (s : State) : (s.idle).rsp = none := rfl

/-! ### A reset edge -/

@[simp] theorem State.acceptReset_tps (s : State) : (s.acceptReset).tps = 0#32 := rfl
@[simp] theorem State.acceptReset_accel (s : State) : (s.acceptReset).accel = 0#32 := rfl
@[simp] theorem State.acceptReset_targetStep (s : State) : (s.acceptReset).targetStep = 0#32 := rfl
@[simp] theorem State.acceptReset_targetSpeed (s : State) : (s.acceptReset).targetSpeed = 0#32 := rfl
@[simp] theorem State.acceptReset_step (s : State) : (s.acceptReset).step = 0#32 := rfl
@[simp] theorem State.acceptReset_speed (s : State) : (s.acceptReset).speed = 0#32 := rfl
@[simp] theorem State.acceptReset_delay (s : State) : (s.acceptReset).delay = 0#32 := rfl
@[simp] theorem State.acceptReset_rest (s : State) : (s.acceptReset).rest = 0#32 := rfl
@[simp] theorem State.acceptReset_rampIndex (s : State) : (s.acceptReset).rampIndex = 0#32 := rfl
@[simp] theorem State.acceptReset_phase (s : State) : (s.acceptReset).phase = .stopped := rfl
@[simp] theorem State.acceptReset_inputs (s : State) : (s.acceptReset).inputs = s.inputs.tail := rfl
@[simp] theorem State.acceptReset_rsp (s : State) : (s.acceptReset).rsp = none := rfl

/-! ### The registers alone -/

@[simp] theorem State.registers_tps (s : State) : (s.registers).tps = s.tps := rfl
@[simp] theorem State.registers_accel (s : State) : (s.registers).accel = s.accel := rfl
@[simp] theorem State.registers_targetStep (s : State) : (s.registers).targetStep = s.targetStep := rfl
@[simp] theorem State.registers_targetSpeed (s : State) : (s.registers).targetSpeed = s.targetSpeed := rfl
@[simp] theorem State.registers_step (s : State) : (s.registers).step = s.step := rfl
@[simp] theorem State.registers_speed (s : State) : (s.registers).speed = s.speed := rfl
@[simp] theorem State.registers_delay (s : State) : (s.registers).delay = s.delay := rfl
@[simp] theorem State.registers_rest (s : State) : (s.registers).rest = s.rest := rfl
@[simp] theorem State.registers_rampIndex (s : State) : (s.registers).rampIndex = s.rampIndex := rfl
@[simp] theorem State.registers_phase (s : State) : (s.registers).phase = s.phase := rfl
@[simp] theorem State.registers_inputs (s : State) : (s.registers).inputs = [] := rfl
@[simp] theorem State.registers_rsp (s : State) : (s.registers).rsp = none := rfl

end Sys2Proof.Machine
end

