-- ==== Sys2Proof/Laws/Words.lean ====
section
/-! SUPPORT. The fields of the command and response words, and the readings and writes of a register. -/

namespace Sys2Proof

@[simp] theorem cmdOp_cmdWord (op : BitVec 4) (arg : Word) : cmdOp (cmdWord op arg) = op := by
  apply BitVec.eq_of_toNat_eq
  have := arg.isLt
  have := op.isLt
  simp only [cmdOp, cmdWord, BitVec.extractLsb'_toNat, BitVec.toNat_append, Nat.shiftRight_eq_div_pow]
  rw [← Nat.shiftLeft_add_eq_or_of_lt arg.isLt, Nat.shiftLeft_eq]
  omega

@[simp] theorem cmdArg_cmdWord (op : BitVec 4) (arg : Word) : cmdArg (cmdWord op arg) = arg := by
  apply BitVec.eq_of_toNat_eq
  have := arg.isLt
  simp only [cmdArg, cmdWord, BitVec.extractLsb'_toNat, BitVec.toNat_append, Nat.shiftRight_eq_div_pow]
  rw [← Nat.shiftLeft_add_eq_or_of_lt arg.isLt, Nat.shiftLeft_eq]
  omega

/-- A command word is its two fields, `cmd = op ++ arg` (30_encoding.md R65). -/
theorem cmdWord_fields (w : CmdWord) : cmdWord (cmdOp w) (cmdArg w) = w := by
  apply BitVec.eq_of_toNat_eq
  have := w.isLt
  have h : (cmdArg w).toNat = w.toNat % 2 ^ 32 := by simp [cmdArg]
  have h' : (cmdOp w).toNat = w.toNat / 2 ^ 32 % 2 ^ 4 := by simp [cmdOp, Nat.shiftRight_eq_div_pow]
  simp only [cmdWord, BitVec.toNat_append]
  rw [← Nat.shiftLeft_add_eq_or_of_lt (cmdArg w).isLt, Nat.shiftLeft_eq, h, h']
  omega

/-- The operation selected by an assigned code, and by no other (30_encoding.md R70). -/
theorem opcodeOf_eq_some {c : BitVec 4} {op : Opcode} : opcodeOf c = some op ↔ c = opcodeCode op := by
  revert c op
  intro c op
  cases op <;> revert c <;> decide

@[simp] theorem opcodeOf_opcodeCode (op : Opcode) : opcodeOf (opcodeCode op) = some op :=
  opcodeOf_eq_some.mpr rfl

@[simp] theorem instrOpcode_instrOf (op : Opcode) (arg : Word) : instrOpcode (instrOf op arg) = op := by
  cases op <;> rfl

@[simp] theorem instrOf_instrOpcode (i : Instr) : instrOf (instrOpcode i) (instrArg i) = i := by
  cases i <;> rfl

/-- What the decoder can answer: the instruction of the row that `op` selects, or the reserved value of `op`. -/
theorem decode_cases (w : CmdWord) :
    (∃ op, cmdOp w = opcodeCode op ∧ decode w = .ok (instrOf op (cmdArg w))) ∨
      (opcodeOf (cmdOp w) = none ∧ decode w = .error (.reservedOpcode (cmdOp w))) := by
  unfold decode
  cases h : opcodeOf (cmdOp w) with
  | none => exact .inr ⟨rfl, rfl⟩
  | some op => exact .inl ⟨op, opcodeOf_eq_some.mp h, rfl⟩

end Sys2Proof

namespace Sys2Proof.Machine

@[simp] theorem rspStatusField_rspWord (st : Status) (d : Word) : rspStatusField (rspWord st d) = statusCode st := by
  apply BitVec.eq_of_toNat_eq
  have := d.isLt
  have := (statusCode st).isLt
  simp only [rspStatusField, rspWord, BitVec.extractLsb'_toNat, BitVec.toNat_append, Nat.shiftRight_eq_div_pow]
  rw [← Nat.shiftLeft_add_eq_or_of_lt d.isLt, Nat.shiftLeft_eq]
  omega

@[simp] theorem rspDataField_rspWord (st : Status) (d : Word) : rspDataField (rspWord st d) = d := by
  apply BitVec.eq_of_toNat_eq
  have := d.isLt
  simp only [rspDataField, rspWord, BitVec.extractLsb'_toNat, BitVec.toNat_append, Nat.shiftRight_eq_div_pow]
  rw [← Nat.shiftLeft_add_eq_or_of_lt d.isLt, Nat.shiftLeft_eq]
  omega

@[simp] theorem unsigned_eq_toNat (v : Word) : unsigned v = v.toNat := rfl

/-- A value that fits the register is read back (00_scope.md R10). -/
theorem toReg_toNat {v : Nat} (h : v < 2 ^ 32) : (toReg v).toNat = v := by
  rw [toReg, if_pos h, BitVec.toNat_ofNat, Nat.mod_eq_of_lt h]

theorem toReg_eq_ofNat {v : Nat} (h : v < 2 ^ 32) : toReg v = BitVec.ofNat 32 v := if_pos h

/-- The operand of a setter is in the range it may accept exactly when its signed reading is positive
(40_configuration.md R88 (a), R94). -/
theorem sx32_pos_iff (v : Word) : 0 < sx32 v ↔ v.toNat ≠ 0 ∧ v.toNat < 2 ^ 31 := by
  have := v.isLt
  unfold sx32
  split <;> omega

end Sys2Proof.Machine
end

