-- ==== Sys2Proof/Laws/Exec.lean ====
section
/-! SUPPORT. What each meaning and each event can do, said once: if it answers `next t`, one of these cases holds. -/

namespace Sys2Proof.Machine

theorem respond_eq (s : State) (st : Status) (d : Word) :
    s.respond st d = .next { s with rsp := some (rspWord st d) } := rfl

/-- What an answered operation leaves: its response and nothing else (30_encoding.md R68). -/
theorem respond_next {s t : State} {st : Status} {d : Word} (h : s.respond st d = .next t) :
    t = { s with rsp := some (rspWord st d) } := by
  rw [respond_eq] at h
  exact (Host.Outcome.next.inj h).symm

theorem raiseInvalidArgument_next {s t : State} (h : s.raiseInvalidArgument = .next t) :
    t = { s with rsp := some (rspWord .invalidArgument 0#32) } := respond_next h

theorem raiseIllegal_next {s t : State} (h : s.raiseIllegal = .next t) :
    t = { s with rsp := some (rspWord .illegal 0#32) } := respond_next h

theorem execNew_cases {F : Word} {s t : State} (h : execNew F s = .next t) :
    (F.toNat = 0 ∧ t = { s with rsp := some (rspWord .invalidArgument 0#32) }) ∨
    (F.toNat ≠ 0 ∧ t = { State.reset with tps := F, inputs := s.inputs, rsp := some (rspWord .ok 0#32) }) := by
  unfold execNew at h
  split at h
  · exact .inl ⟨‹_›, raiseInvalidArgument_next h⟩
  · exact .inr ⟨‹_›, respond_next h⟩

/-- The guard of SET_ACCELERATION passes (40_configuration.md R88). -/
abbrev AccelAccepted (a : Word) (s : State) : Prop :=
  a.toNat ≠ 0 ∧ a.toNat < 2 ^ 31 ∧ 256 ≤ firstDelay s.tps.toNat a.toNat ∧ firstDelay s.tps.toNat a.toNat < 2 ^ 32

/-- The guard of SET_TARGET_SPEED passes (40_configuration.md R94). -/
abbrev SpeedAccepted (v : Word) (s : State) : Prop :=
  v.toNat ≠ 0 ∧ v.toNat < 2 ^ 31 ∧ 256 ≤ cruiseDelay s.tps.toNat v.toNat ∧ cruiseDelay s.tps.toNat v.toNat < 2 ^ 32

theorem delayOutOfRange_iff (d : Nat) : DelayOutOfRange d ↔ ¬ (256 ≤ d ∧ d < 2 ^ 32) := by
  unfold DelayOutOfRange delayMin delayMax
  omega

theorem execSetAcceleration_cases {a : Word} {s t : State} (h : execSetAcceleration a s = .next t) :
    (¬ AccelAccepted a s ∧ t = { s with rsp := some (rspWord .invalidArgument 0#32) }) ∨
    (AccelAccepted a s ∧ s.phase = .stopped ∧
      t = { s with
        accel := a, delay := toReg (firstDelay s.tps.toNat a.toNat), rsp := some (rspWord .ok 0#32) }) ∨
    (AccelAccepted a s ∧ s.phase ≠ .stopped ∧
      t = { s with
        accel := a, rampIndex := toReg (resyncIndex s.speed.toNat a.toNat), rest := 0#32,
        rsp := some (rspWord .ok 0#32) }) := by
  have hp := sx32_pos_iff a
  have hd := delayOutOfRange_iff (firstDelay s.tps.toNat a.toNat)
  unfold execSetAcceleration at h
  split at h
  · exact .inl ⟨fun hc => absurd (hp.mpr ⟨hc.1, hc.2.1⟩) (by omega), raiseInvalidArgument_next h⟩
  · split at h
    · rename_i hr
      exact .inl ⟨fun hc => hd.mp hr hc.2.2, raiseInvalidArgument_next h⟩
    · rename_i hs hr
      have hacc : AccelAccepted a s := by
        have h1 := hp.mp (by omega)
        have h2 := not_not.mp (fun hc => hr (hd.mpr hc))
        exact ⟨h1.1, h1.2, h2.1, h2.2⟩
      split at h
      · exact .inr (.inl ⟨hacc, ‹_›, respond_next h⟩)
      · exact .inr (.inr ⟨hacc, ‹_›, respond_next h⟩)

theorem execSetTargetStep_next {T : Word} {s t : State} (h : execSetTargetStep T s = .next t) :
    t = { s with targetStep := T, rsp := some (rspWord .ok 0#32) } := respond_next h

theorem execSetTargetSpeed_cases {v : Word} {s t : State} (h : execSetTargetSpeed v s = .next t) :
    (¬ SpeedAccepted v s ∧ t = { s with rsp := some (rspWord .invalidArgument 0#32) }) ∨
    (SpeedAccepted v s ∧ t = { s with targetSpeed := v, rsp := some (rspWord .ok 0#32) }) := by
  have hp := sx32_pos_iff v
  have hd := delayOutOfRange_iff (cruiseDelay s.tps.toNat v.toNat)
  unfold execSetTargetSpeed at h
  split at h
  · exact .inl ⟨fun hc => absurd (hp.mpr ⟨hc.1, hc.2.1⟩) (by omega), raiseInvalidArgument_next h⟩
  · split at h
    · rename_i hr
      exact .inl ⟨fun hc => hd.mp hr hc.2.2, raiseInvalidArgument_next h⟩
    · rename_i hs hr
      have h1 := hp.mp (by omega)
      have h2 := not_not.mp (fun hc => hr (hd.mpr hc))
      exact .inr ⟨⟨h1.1, h1.2, h2.1, h2.2⟩, respond_next h⟩

/-- The block is not configured (41_stepping.md R106). -/
abbrev State.Unconfigured (s : State) : Prop := s.accel.toNat = 0 ∨ s.targetSpeed.toNat = 0

/-- A NEXT takes a step: configured, and not in the terminal state (41_stepping.md R106, R107). -/
abbrev State.TakesStep (s : State) : Prop :=
  ¬ s.Unconfigured ∧ ¬ (s.remaining = 0 ∧ s.rampIndex.toNat ≤ 1)

/-- The four outcomes of NEXT (41_stepping.md R106, R107, R132). -/
theorem execNext_cases {s t : State} (h : execNext s = .next t) :
    (s.Unconfigured ∧ t = { s with rsp := some (rspWord .done s.delay) }) ∨
    (¬ s.Unconfigured ∧ s.remaining = 0 ∧ s.rampIndex.toNat ≤ 1 ∧ s.phase = .stopped ∧
      t = { s with rsp := some (rspWord .done s.delay) }) ∨
    (¬ s.Unconfigured ∧ s.remaining = 0 ∧ s.rampIndex.toNat ≤ 1 ∧ s.phase ≠ .stopped ∧
      t = { s.comeToRest with rsp := some (rspWord .done (toReg s.seedDelay)) }) ∨
    (s.TakesStep ∧
      t = { s.afterStep s.rampPoint with rsp := some (rspWord .ok (toReg s.rampPoint.delay)) }) := by
  unfold execNext at h
  split at h
  · exact .inl ⟨‹_›, respond_next h⟩
  · split at h
    · rename_i hu hr
      split at h
      · exact .inr (.inr (.inl ⟨hu, hr.1, hr.2, ‹_›, respond_next h⟩))
      · rename_i hp
        exact .inr (.inl ⟨hu, hr.1, hr.2, by simpa using hp, respond_next h⟩)
    · exact .inr (.inr (.inr ⟨⟨‹_›, ‹_›⟩, respond_next h⟩))

theorem execNext_of_takesStep {s : State} (h : s.TakesStep) :
    execNext s = .next
      { s.afterStep s.rampPoint with rsp := some (rspWord .ok (toReg s.rampPoint.delay)) } := by
  unfold execNext
  rw [if_neg h.1, if_neg h.2, respond_eq]

theorem execGetStep_next {s t : State} (h : execGetStep s = .next t) :
    t = { s with rsp := some (rspWord .ok s.step) } := respond_next h

theorem execGetSpeed_next {s t : State} (h : execGetSpeed s = .next t) :
    t = { s with rsp := some (rspWord .ok s.speed) } := respond_next h

theorem execGetDelay_next {s t : State} (h : execGetDelay s = .next t) :
    t = { s with rsp := some (rspWord .ok s.delay) } := respond_next h

theorem execGetPhase_next {s t : State} (h : execGetPhase s = .next t) :
    t = { s with rsp := some (rspWord .ok ((phaseCode s.phase).zeroExtend 32)) } := respond_next h

/-- What one event does (20_memory.md R51, 70_reset_and_hazards.md R170, 60_exceptions.md R166). -/
theorem step_cases {s t : State} (h : step s = .next t) :
    (s.inputs = [] ∧ t = s.idle) ∨
    (∃ later, s.inputs = .reset :: later ∧ t = s.acceptReset) ∨
    (∃ w later, s.inputs = .command w :: later ∧ execWord w s.takeEvent = .next t) := by
  unfold step at h
  split at h
  · exact .inl ⟨‹_›, (Host.Outcome.next.inj h).symm⟩
  · exact .inr (.inl ⟨_, ‹_›, (Host.Outcome.next.inj h).symm⟩)
  · exact .inr (.inr ⟨_, _, ‹_›, h⟩)

theorem execWord_cases {w : CmdWord} {s t : State} (h : execWord w s = .next t) :
    (∃ op, cmdOp w = opcodeCode op ∧ exec (instrOf op (cmdArg w)) s = .next t) ∨
    (opcodeOf (cmdOp w) = none ∧ t = { s with rsp := some (rspWord .illegal 0#32) }) := by
  unfold execWord at h
  rcases decode_cases w with ⟨op, ho, hd⟩ | ⟨ho, hd⟩
  · rw [hd] at h
    exact .inl ⟨op, ho, h⟩
  · rw [hd] at h
    exact .inr ⟨ho, raiseIllegal_next h⟩

/-! ### Every command is answered, from the registers alone -/

/-- Every operation answers a next state, with a response and the host's stream as it was (60_exceptions.md R160). -/
theorem exec_answers (i : Instr) (s : State) :
    ∃ t, exec i s = .next t ∧ t.inputs = s.inputs ∧ t.rsp.isSome := by
  cases i <;> simp only [exec]
  · unfold execNew
    split <;> exact ⟨_, rfl, rfl, rfl⟩
  · unfold execSetAcceleration
    split
    · exact ⟨_, rfl, rfl, rfl⟩
    · split
      · exact ⟨_, rfl, rfl, rfl⟩
      · split <;> exact ⟨_, rfl, rfl, rfl⟩
  · exact ⟨_, rfl, rfl, rfl⟩
  · unfold execSetTargetSpeed
    split
    · exact ⟨_, rfl, rfl, rfl⟩
    · split <;> exact ⟨_, rfl, rfl, rfl⟩
  · unfold execNext
    split
    · exact ⟨_, rfl, rfl, rfl⟩
    · split
      · split <;> exact ⟨_, rfl, rfl, rfl⟩
      · refine ⟨_, rfl, ?_, rfl⟩
        simp only [State.afterStep]
        split <;> rfl
  all_goals exact ⟨_, rfl, rfl, rfl⟩

/-- The same of a command word, assigned or reserved. -/
theorem execWord_answers (w : CmdWord) (s : State) :
    ∃ t, execWord w s = .next t ∧ t.inputs = s.inputs ∧ t.rsp.isSome := by
  unfold execWord
  split
  · exact exec_answers _ _
  · exact ⟨_, rfl, rfl, rfl⟩

/-! ### Runs -/

theorem run_next {n : Nat} {s t : State} (h : step s = .next t) :
    Sys2Proof.core.run (n + 1) s = Sys2Proof.core.run n t := by
  have h' : Sys2Proof.core.step s = .next t := h
  simp only [Host.Core.run, h']

end Sys2Proof.Machine
end

