-- ==== Sys2Proof/Laws/PerInstr.lean ====
section
/-! SUPPORT. Statements made of every instruction, one lemma for each: the command word of an instruction holds its
operation's code in `op` and its operand, or 0, in `arg` (30_encoding.md R65, R75). -/

namespace Sys2Proof.Laws.Encodable

/-- The two fields of the word of `i`. -/
def Statement (i : Instr) : Prop :=
  cmdOp (encode i) = opcodeCode (instrOpcode i) ∧ cmdArg (encode i) = instrArg i

theorem new (a : Word) : Statement (.new a) := ⟨cmdOp_cmdWord _ _, cmdArg_cmdWord _ _⟩
theorem setAcceleration (a : Word) : Statement (.setAcceleration a) := ⟨cmdOp_cmdWord _ _, cmdArg_cmdWord _ _⟩
theorem setTargetStep (a : Word) : Statement (.setTargetStep a) := ⟨cmdOp_cmdWord _ _, cmdArg_cmdWord _ _⟩
theorem setTargetSpeed (a : Word) : Statement (.setTargetSpeed a) := ⟨cmdOp_cmdWord _ _, cmdArg_cmdWord _ _⟩
theorem next : Statement .next := ⟨cmdOp_cmdWord _ _, cmdArg_cmdWord _ _⟩
theorem getStep : Statement .getStep := ⟨cmdOp_cmdWord _ _, cmdArg_cmdWord _ _⟩
theorem getSpeed : Statement .getSpeed := ⟨cmdOp_cmdWord _ _, cmdArg_cmdWord _ _⟩
theorem getDelay : Statement .getDelay := ⟨cmdOp_cmdWord _ _, cmdArg_cmdWord _ _⟩
theorem getPhase : Statement .getPhase := ⟨cmdOp_cmdWord _ _, cmdArg_cmdWord _ _⟩

end Sys2Proof.Laws.Encodable
end

