-- ==== Sys2Proof/Laws/Ramp.lean ====
section
/-! SUPPORT. What the three sub-blocks of NEXT compute: the meaning of the choice of action, the cases of a clamp and of a
floor, and the ranges of the registers a step writes. -/

namespace Sys2Proof.Machine

/-! ### The choice of action (41_stepping.md R108) -/

theorem chooseAction_cases (n rem c cd : Nat) :
    (n = 0 ∧ chooseAction n rem c cd = .seed) ∨
    (n ≠ 0 ∧ rem ≤ n - 1 ∧ chooseAction n rem c cd = .decelStop) ∨
    (n ≠ 0 ∧ n ≤ rem ∧ c < cd ∧ chooseAction n rem c cd = .decelFloor) ∨
    (n ≠ 0 ∧ n + 1 ≤ rem ∧ cd < c ∧ chooseAction n rem c cd = .accel) ∨
    (n ≠ 0 ∧ n ≤ rem ∧ (c = cd ∨ cd < c ∧ rem = n) ∧ chooseAction n rem c cd = .hold) := by
  unfold chooseAction
  by_cases h0 : n = 0
  · simp [h0]
  by_cases h1 : rem ≤ n - 1
  · simp [h0, h1]
  by_cases h2 : c < cd
  · simp [h0, h1, h2]; omega
  by_cases h3 : c = cd
  · simp [h0, h1, h3]; omega
  by_cases h4 : rem ≥ n + 1
  · simp [h0, h1, h2, h3, h4]; omega
  · simp [h0, h1, h2, h3, h4]; omega

theorem State.remaining_eq (s : State) : s.remaining = s.targetStep.toNat - s.step.toNat := by
  unfold State.remaining
  simp only [unsigned_eq_toNat]
  split <;> omega

/-! ### The step of each action -/

theorem clampAccel_cases (cd : Nat) (p : RampPoint) :
    (p.delay ≤ cd ∧ clampAccel cd p = ⟨cd, p.index, 0, .cruising⟩) ∨ (cd < p.delay ∧ clampAccel cd p = p) := by
  unfold clampAccel
  split
  · exact .inl ⟨‹_›, rfl⟩
  · exact .inr ⟨by omega, rfl⟩

theorem decelFloor_cases (c n r cd : Nat) :
    (2 ≤ n ∧ (decelStep c n r).delay < cd ∧ decelFloor c n r cd = decelStep c n r) ∨
    (2 ≤ n ∧ cd ≤ (decelStep c n r).delay ∧ decelFloor c n r cd = ⟨cd, n - 1, 0, .cruising⟩) ∨
    (n < 2 ∧ decelFloor c n r cd = ⟨cd, 1, 0, .cruising⟩) := by
  unfold decelFloor
  split
  · split
    · exact .inr (.inl ⟨‹_›, ‹_›, rfl⟩)
    · exact .inl ⟨‹_›, by omega, rfl⟩
  · exact .inr (.inr ⟨by omega, rfl⟩)

/-- The remainder a step starts from when its action has provisional phase `p` (41_stepping.md R125 (a)). -/
theorem carriedRest_eq (p ph : Phase) (r : Nat) : carriedRest p ph r = if ph = p then r else 0 := by
  unfold carriedRest
  by_cases h : p = ph
  · simp [h]
  · simp [h, Ne.symm h]

/-- An acceleration step takes less than the whole delay away (41_stepping.md R119). -/
theorem accel_delta_lt {c n r : Nat} (hc : 256 ≤ c) (hn : 1 ≤ n) (hr : r < 4 * n + 1) :
    (2 * c + r) / (4 * n + 1) < c := by
  rw [Nat.div_lt_iff_lt_mul (by omega)]
  nlinarith [Nat.mul_le_mul_left c hn]

/-! ### The six writes of a step -/

/-- What one step computes is one of these, by action (41_stepping.md R132). -/
theorem rampPoint_cases (s : State) :
    (s.rampIndex.toNat = 0 ∧ s.rampPoint = seedStep s.seedDelay s.capDelay) ∨
    (s.rampIndex.toNat ≠ 0 ∧ s.remaining ≤ s.rampIndex.toNat - 1 ∧
      s.rampPoint = decelStep s.delay.toNat s.rampIndex.toNat
        (if s.phase = .decelerating then s.rest.toNat else 0)) ∨
    (s.rampIndex.toNat ≠ 0 ∧ s.rampIndex.toNat ≤ s.remaining ∧ s.delay.toNat < s.capDelay ∧
      s.rampPoint = decelFloor s.delay.toNat s.rampIndex.toNat
        (if s.phase = .decelerating then s.rest.toNat else 0) s.capDelay) ∨
    (s.rampIndex.toNat ≠ 0 ∧ s.rampIndex.toNat + 1 ≤ s.remaining ∧ s.capDelay < s.delay.toNat ∧
      s.rampPoint = clampAccel s.capDelay (accelStep s.delay.toNat s.rampIndex.toNat
        (if s.phase = .accelerating then s.rest.toNat else 0))) ∨
    (s.rampIndex.toNat ≠ 0 ∧ s.rampIndex.toNat ≤ s.remaining ∧
      (s.delay.toNat = s.capDelay ∨ s.capDelay < s.delay.toNat ∧ s.remaining = s.rampIndex.toNat) ∧
      s.rampPoint = holdStep s.delay.toNat s.rampIndex.toNat) := by
  have hx := chooseAction_cases s.rampIndex.toNat s.remaining s.delay.toNat s.capDelay
  have hp : s.rampPoint = takeAction s.action s.seedDelay s.capDelay s.delay.toNat s.rampIndex.toNat
      (if s.phase = provisionalPhase s.action then s.rest.toNat else 0) := by
    rw [← carriedRest_eq]; rfl
  have ha : s.action = chooseAction s.rampIndex.toNat s.remaining s.delay.toNat s.capDelay := rfl
  rcases hx with ⟨h0, h⟩ | ⟨h0, h1, h⟩ | ⟨h0, h1, h2, h⟩ | ⟨h0, h1, h2, h⟩ | ⟨h0, h1, h2, h⟩ <;>
    rw [ha, h] at hp
  · exact .inl ⟨h0, hp⟩
  · exact .inr (.inl ⟨h0, h1, hp⟩)
  · exact .inr (.inr (.inl ⟨h0, h1, h2, hp⟩))
  · exact .inr (.inr (.inr (.inl ⟨h0, h1, h2, hp⟩)))
  · exact .inr (.inr (.inr (.inr ⟨h0, h1, h2, hp⟩)))

/-- The ranges of what a step writes: the delay is at least one tick and long enough for the speed to stay below `2^31`,
the ordinal is legal, and the remainder is below its denominator (10_state.md R26, R27, R29, R30). -/
structure RampPoint.Legal (F : Nat) (p : RampPoint) : Prop where
  delay_ge : 256 ≤ p.delay
  delay_lt : p.delay < 2 ^ 32
  delay_slow : F * 65536 ≤ 2147483647 * p.delay
  index_ge : 1 ≤ p.index
  index_le : p.index ≤ 1073741823
  moving : p.phase ≠ .stopped
  rest_cruising : p.phase = .cruising → p.rest = 0
  rest_accelerating : p.phase = .accelerating → p.rest < 4 * p.index + 1
  rest_decelerating : p.phase = .decelerating → p.rest < 4 * p.index - 1

theorem RampPoint.Legal.rest_lt {F : Nat} {p : RampPoint} (h : p.Legal F) : p.rest < 2 ^ 32 := by
  have h1 := h.index_le
  have h2 := h.rest_cruising
  have h3 := h.rest_accelerating
  have h4 := h.rest_decelerating
  have h5 := h.moving
  cases hp : p.phase <;> simp_all <;> omega

/-- The cruise delay is never shorter than the exact quotient (10_state.md R36). -/
theorem mul_cruiseDelay_ge {F V : Nat} (hV : V ≠ 0) : F * 65536 ≤ V * cruiseDelay F V := by
  unfold cruiseDelay cdiv
  rw [if_neg hV, Nat.shiftLeft_eq]
  have h := Nat.div_add_mod (F * 2 ^ 16 + V - 1) V
  have h' := Nat.mod_lt (F * 2 ^ 16 + V - 1) (Nat.pos_of_ne_zero hV)
  omega

/-- A step from a state that meets the invariant writes legal values. -/
theorem rampPoint_legal {s : State} (hi : s.Inv) (ht : s.TakesStep) : s.rampPoint.Legal s.tps.toNat := by
  obtain ⟨hpn, hrest, ha, hv, hm, ⟨hn, hsp⟩, hrc, hra, hrd⟩ := hi
  obtain ⟨hu, hterm⟩ := ht
  have hA : s.accel.toNat ≠ 0 := fun h => hu (.inl h)
  have hV : s.targetSpeed.toNat ≠ 0 := fun h => hu (.inr h)
  have hfd : 256 ≤ s.seedDelay ∧ s.seedDelay < 2 ^ 32 := (ha.resolve_left hA).2
  have hv' := hv.resolve_left hV
  have hcd : 256 ≤ s.capDelay ∧ s.capDelay < 2 ^ 32 := hv'.2
  have hslow : s.tps.toNat * 65536 ≤ 2147483647 * s.capDelay := by
    have := mul_cruiseDelay_ge (F := s.tps.toNat) hV
    have h2 : s.targetSpeed.toNat * s.capDelay ≤ 2147483647 * s.capDelay :=
      Nat.mul_le_mul_right _ (by have := hv'.1; omega)
    exact this.trans h2
  have hdl := s.delay.isLt
  rcases rampPoint_cases s with ⟨h0, h⟩ | ⟨h0, h1, h⟩ | ⟨h0, h1, h2, h⟩ | ⟨h0, h1, h2, h⟩ | ⟨h0, h1, h2, h⟩ <;> rw [h]
  · refine ⟨?_, ?_, ?_, ?_, ?_, ?_, ?_, ?_, ?_⟩ <;> simp only [seedStep]
    · omega
    · omega
    · have : s.capDelay ≤ max s.seedDelay s.capDelay := by omega
      exact hslow.trans (Nat.mul_le_mul_left _ this)
    · omega
    · omega
    · split <;> simp
    · simp
    · simp
    · simp
  all_goals
    have hmv : s.phase ≠ .stopped := fun hc => h0 (hpn.mp hc)
    obtain ⟨-, -, hd256, hdslow⟩ := hm hmv
  · have hge : 2 ≤ s.rampIndex.toNat := by
      rcases Nat.lt_or_ge s.rampIndex.toNat 2 with hlt | hge
      · exact absurd ⟨by omega, by omega⟩ hterm
      · exact hge
    refine ⟨?_, ?_, ?_, ?_, ?_, ?_, ?_, ?_, ?_⟩ <;> simp only [decelStep, delayMax]
    · generalize recurrenceNum _ _ / _ = x; omega
    · omega
    · generalize recurrenceNum _ _ / _ = x
      have : s.delay.toNat ≤ min 4294967295 (s.delay.toNat + x) := by omega
      exact hdslow.trans (Nat.mul_le_mul_left _ this)
    · omega
    · omega
    · simp
    · simp
    · simp
    · intro _
      exact Nat.mod_lt _ (by unfold decelDen; omega)
  · rcases decelFloor_cases s.delay.toNat s.rampIndex.toNat
      (if s.phase = .decelerating then s.rest.toNat else 0) s.capDelay with
      ⟨hge, hlt, he⟩ | ⟨hge, hle, he⟩ | ⟨hge, he⟩ <;> rw [he]
    · simp only [decelStep, delayMax] at hlt
      refine ⟨?_, ?_, ?_, ?_, ?_, ?_, ?_, ?_, ?_⟩ <;> simp only [decelStep, delayMax]
      · generalize recurrenceNum _ _ / _ = x; omega
      · omega
      · generalize recurrenceNum _ _ / _ = x
        have : s.delay.toNat ≤ min 4294967295 (s.delay.toNat + x) := by omega
        exact hdslow.trans (Nat.mul_le_mul_left _ this)
      · omega
      · omega
      · simp
      · simp
      · simp
      · intro _
        exact Nat.mod_lt _ (by unfold decelDen; omega)
    · exact ⟨hcd.1, hcd.2, hslow, by simp only []; omega, by simp only []; omega, by simp, by simp, by simp, by simp⟩
    · exact ⟨hcd.1, hcd.2, hslow, by simp, by simp, by simp, by simp, by simp, by simp⟩
  · rcases clampAccel_cases s.capDelay (accelStep s.delay.toNat s.rampIndex.toNat
      (if s.phase = .accelerating then s.rest.toNat else 0)) with ⟨hle, he⟩ | ⟨hlt, he⟩ <;> rw [he]
    · refine ⟨hcd.1, hcd.2, hslow, ?_, ?_, by simp, by simp, by simp, by simp⟩ <;>
        simp only [accelStep, rampIndexMax] <;> omega
    · have hslow' := hslow.trans (Nat.mul_le_mul_left 2147483647 hlt.le)
      simp only [accelStep] at hlt
      refine ⟨?_, ?_, hslow', ?_, ?_, by simp [accelStep], by simp [accelStep], ?_, by simp [accelStep]⟩ <;>
        simp only [accelStep, rampIndexMax]
      · generalize recurrenceNum _ _ / _ = x at *; omega
      · generalize recurrenceNum _ _ / _ = x at *; omega
      · omega
      · omega
      · intro _
        have := Nat.mod_lt (recurrenceNum s.delay.toNat (if s.phase = .accelerating then s.rest.toNat else 0))
          (show 0 < accelDen s.rampIndex.toNat by unfold accelDen; omega)
        unfold accelDen at *
        omega
  · refine ⟨hd256, hdl, hdslow, ?_, hn, by simp [holdStep], by simp [holdStep], by simp [holdStep], by simp [holdStep]⟩
    simp only [holdStep]; omega

/-- The speed written for a legal delay is below `2^31` (10_state.md R26). -/
theorem speedOf_lt {F V c : Nat} (hc : 1 ≤ c) (hs : F * 65536 ≤ 2147483647 * c) (hV : V < 2 ^ 31) :
    speedOf F V c < 2 ^ 31 := by
  unfold speedOf
  split
  · exact hV
  · rw [if_neg (by omega), Nat.shiftLeft_eq, Nat.div_lt_iff_lt_mul (by omega)]
    omega

/-- A moving block is configured and at ordinal 1 or above. -/
theorem moving_configured {s : State} (hi : s.Inv) (hm : s.phase ≠ .stopped) :
    1 ≤ s.rampIndex.toNat ∧ ¬ s.Unconfigured := by
  have h := hi.2.2.2.2.1 hm
  refine ⟨?_, fun hu => hu.elim h.1 h.2.1⟩
  by_contra hc
  exact hm (hi.1.mpr (by omega))

/-- What a NEXT that takes a step answers and leaves, in the terms of Safety.lean (41_stepping.md R128 to R132). -/
theorem execNext_tookStep {s : State} (hi : s.Inv) (ht : s.TakesStep) :
    ∃ t, execNext s = .next t ∧
      s.TookStep t s.rampPoint.delay s.rampPoint.index s.rampPoint.rest s.rampPoint.phase := by
  have hl := rampPoint_legal hi ht
  have hA : s.accel.toNat ≠ 0 := fun h => ht.1 (.inl h)
  have hV : s.targetSpeed.toNat ≠ 0 := fun h => ht.1 (.inr h)
  have hfd := (hi.2.2.1.resolve_left hA).2
  have hv := hi.2.2.2.1.resolve_left hV
  have hge := hl.delay_ge
  have hsp := speedOf_lt (V := s.targetSpeed.toNat) (by omega) hl.delay_slow hv.1
  have hst : s.stepAfter = min 4294967295 (s.step.toNat + 1) := rfl
  have hs : (toReg s.stepAfter).toNat = s.stepAfter := toReg_toNat (by rw [hst]; omega)
  have hstop : s.stopsAt s.rampPoint = true ↔ s.stepAfter ≥ s.targetStep.toNat ∧ s.rampPoint.index ≤ 1 := by
    simp [State.stopsAt]
  have hstep : (s.afterStep s.rampPoint).step.toNat = s.stepAfter := by
    unfold State.afterStep
    split <;> exact hs
  refine ⟨_, execNext_of_takesStep ht, ?_, hstep.trans hst, hge, hl.delay_lt, ?_, ?_⟩
  · unfold State.afterStep State.SameConfiguration
    split <;> exact ⟨rfl, rfl, rfl, rfl, rfl⟩
  · show some _ = some _
    rw [toReg_eq_ofNat hl.delay_lt]
    rfl
  · simp only [hstep]
    unfold State.afterStep
    by_cases hc : s.stepAfter ≥ s.targetStep.toNat ∧ s.rampPoint.index ≤ 1
    · rw [if_pos hc, if_pos (hstop.mpr hc)]
      exact ⟨rfl, rfl, rfl, rfl, toReg_toNat hfd.2⟩
    · rw [if_neg hc, if_neg (fun h => hc (hstop.mp h))]
      refine ⟨rfl, toReg_toNat hl.delay_lt, toReg_toNat (by have := hl.index_le; omega), toReg_toNat hl.rest_lt, ?_⟩
      show (toReg _).toNat = _
      rw [toReg_toNat (hsp.trans (by omega))]
      unfold speedOf
      split
      · rfl
      · rw [if_neg (by omega), Nat.shiftLeft_eq]

end Sys2Proof.Machine
end

