-- ==== Sys2Proof/Tests/Slice0.lean ====
section
/-! SUPPORT. Tests: ill-formed commands, words written out from the spec's encoding, single steps with the values of
95_test_vectors.md, and for every statement with hypotheses a state and operands that meet them. -/

namespace Sys2Proof.Tests

open Sys2Proof.Machine

/-! ### Ill-formed source commands are refused (30_encoding.md R75) -/

theorem test_missing_operand_refused : (SourceCommand.mk .new none).operandPresent = false := by decide
theorem test_superfluous_operand_refused : (SourceCommand.mk .next (some (.int 1))).operandPresent = false := by decide
theorem test_wide_operand_refused :
    (SourceCommand.mk .setTargetStep (some (.int 4294967296))).operandFits = false := by decide
theorem test_wide_shifted_operand_refused :
    (SourceCommand.mk .setTargetSpeed (some (.shifted8 16777216))).operandFits = false := by decide
theorem test_ill_formed_not_assembled :
    assemble ⟨.new, none⟩ = none ∧ assemble ⟨.next, some (.int 1)⟩ = none ∧
      assemble ⟨.setTargetStep, some (.int 4294967296)⟩ = none := by decide
theorem test_ill_formed_lines :
    assembleLine "NEW".toList = .error .illFormed ∧ assembleLine "JUMP 1".toList = .error .unknownMnemonic ∧
      assembleLine "NEW 12z".toList = .error .badOperand ∧
      assembleLine "SET_ACCELERATION -1".toList = .error .badOperand := by decide

/-! ### Words written out from the opcode map (R70; vectors V3, V4, V6) -/

theorem test_decode_new : decodeTableWord 40 0x0000F4240 = some (.new 1000000#32) := by decide
theorem test_decode_set_acceleration : decodeTableWord 40 0x10003E800 = some (.setAcceleration 256000#32) := by decide
theorem test_decode_set_target_step : decodeTableWord 40 0x2FFFFFFFF = some (.setTargetStep 4294967295#32) := by decide
theorem test_decode_set_target_speed : decodeTableWord 40 0x300032000 = some (.setTargetSpeed 204800#32) := by decide
theorem test_decode_next : decodeTableWord 40 0x4DEADBEEF = some .next := by decide
theorem test_decode_get_step : decodeTableWord 40 0x800000000 = some .getStep := by decide
theorem test_decode_get_speed : decodeTableWord 40 0x900000000 = some .getSpeed := by decide
theorem test_decode_get_delay : decodeTableWord 40 0xA00000000 = some .getDelay := by decide
theorem test_decode_get_phase : decodeTableWord 40 0xB00000001 = some .getPhase := by decide
theorem test_decode_reserved :
    [0x5DEADBEEF, 0x600000000, 0x700000000, 0xC00000000, 0xD00000000, 0xE00000000, 0xF00000000].all
      (fun w => decodeTableWord 40 w == none) = true := by decide
theorem test_encode_set_target_step : encode (.setTargetStep 1000#32) = 0x2000003E8#36 := by decide

/-! ### States -/

/-- The state with these ten registers, no host and no response. -/
def regs (F A T V s speed c r n : Nat) (p : Phase) : State where
  tps := BitVec.ofNat 32 F
  accel := BitVec.ofNat 32 A
  targetStep := BitVec.ofNat 32 T
  targetSpeed := BitVec.ofNat 32 V
  step := BitVec.ofNat 32 s
  speed := BitVec.ofNat 32 speed
  delay := BitVec.ofNat 32 c
  rest := BitVec.ofNat 32 r
  rampIndex := BitVec.ofNat 32 n
  phase := p
  inputs := []
  rsp := none

/-- `REF(T)` (95_test_vectors.md, conventions). -/
def ref (T : Nat) : State := regs 1000000 256000 T 204800 0 0 7739296 0 0 .stopped

/-- After step 100 of V1 (a). -/
def afterHundred : State := regs 1000000 256000 1000 204800 100 114196 573888 162 100 .accelerating

/-- V35 (a) after `SET_TARGET_STEP 10` at step 50. -/
def pulledBack : State := regs 1000000 256000 10 204800 50 80546 813643 113 50 .accelerating

/-- After call 5 of V32. -/
def beforeCap : State := regs 1000000 256000 100 25600 5 24304 2696497 1 5 .accelerating

/-- After call 95 of V32. -/
def beforeBraking : State := regs 1000000 256000 100 25600 95 25600 2560000 0 6 .cruising

/-- After call 99 of V32. -/
def lastBraking : State := regs 1000000 256000 100 25600 99 13449 4872574 4 2 .decelerating

/-- V35 (d): the cap lowered while cruising. -/
def capLowered : State := regs 1000000 256000 100000 102400 400 204800 320000 0 321 .cruising

/-- V35 (d) after call 240 of the deceleration. -/
def beforeLowCap : State := regs 1000000 256000 100000 102400 640 102639 638506 0 81 .decelerating

/-- The same with the event stream `l`. -/
def offered (s : State) (l : List PortEvent) : State := { s with inputs := l }

/-! ### Single steps -/

/-- V8. -/
theorem test_new_mid_motion :
    exec (.new 2000000#32) afterHundred = .next { State.reset with tps := 2000000#32, rsp := some 0#34 } := rfl
/-- V7. -/
theorem test_new_zero : exec (.new 0#32) (ref 5) = .next { ref 5 with rsp := some 0x200000000#34 } := rfl
/-- V10. -/
theorem test_set_acceleration_at_rest :
    exec (.setAcceleration 307200#32) (ref 0) =
      .next { ref 0 with accel := 307200#32, delay := 7064980#32, rsp := some 0#34 } := rfl
/-- V16. -/
theorem test_set_acceleration_moving :
    exec (.setAcceleration 512000#32) afterHundred =
      .next { afterHundred with accel := 512000#32, rest := 0#32, rampIndex := 50#32, rsp := some 0#34 } := rfl
/-- V28. -/
theorem test_set_target_step :
    exec (.setTargetStep 0#32) afterHundred = .next { afterHundred with targetStep := 0#32, rsp := some 0#34 } := rfl
/-- V20. -/
theorem test_set_target_speed :
    exec (.setTargetSpeed 102400#32) (ref 0) =
      .next { ref 0 with targetSpeed := 102400#32, rsp := some 0#34 } := rfl
/-- V21. -/
theorem test_set_target_speed_negative :
    exec (.setTargetSpeed 2147483648#32) (ref 0) = .next { ref 0 with rsp := some 0x200000000#34 } := rfl
/-- V16, last paragraph: the remainder 162 is carried. -/
theorem test_next_accelerates :
    exec .next afterHundred = .next
      { afterHundred with
        step := 101#32, speed := 114768#32, delay := 571026#32, rest := 276#32, rampIndex := 101#32,
        rsp := some 571026#34 } := rfl
/-- V38: saturation of the last braking step. -/
theorem test_next_saturates :
    exec .next (regs 1000000 1 4 22 3 22 2978909091 0 2 .cruising) = .next
      { regs 1000000 1 4 22 4 0 3915810273 0 0 .stopped with rsp := some 4294967295#34 } := rfl
/-- The registers of V1 (a) after step 100 (R141 to R144). -/
theorem test_get_step : exec .getStep afterHundred = .next { afterHundred with rsp := some 0x000000064#34 } := rfl
theorem test_get_speed : exec .getSpeed afterHundred = .next { afterHundred with rsp := some 114196#34 } := rfl
theorem test_get_delay : exec .getDelay afterHundred = .next { afterHundred with rsp := some 0x00008C1C0#34 } := rfl
theorem test_get_phase : exec .getPhase lastBraking = .next { lastBraking with rsp := some 0x000000003#34 } := rfl
/-- V6, through the port. -/
theorem test_reserved_step :
    step ((ref 5).withFetchWord 40 0x5DEADBEEF) = .next { ref 5 with rsp := some 0x300000000#34 } := rfl
/-- The first instruction after reset. -/
theorem test_first_command :
    step (State.reset.withFetchWord 40 0x0000F4240) = .next { State.reset with tps := 1000000#32, rsp := some 0#34 } := rfl

/-! ### The hypotheses of the statements are met -/

theorem test_witness_DecodeAndEncodeAgree :
    decode 0x2FFFFFFFF#36 = .ok (.setTargetStep 4294967295#32) ∧
      (instrOpcode (.setTargetStep 4294967295#32)).takesOperand = true := by decide
theorem test_witness_IgnoredOperandIsIgnored :
    cmdOp 0x400000000#36 = cmdOp 0x4DEADBEEF#36 ∧ (cmdOp 0x400000000#36).toNat ∈ [0x4, 0x8, 0x9, 0xA, 0xB] ∧
      cmdOp 0xB00000000#36 = cmdOp 0xBFFFFFFFF#36 := by decide
theorem test_witness_AssembledWordDecodes :
    (SourceCommand.mk .new (some (.int 4294967295))).wellFormed = true ∧
      (SourceCommand.mk .getPhase none).wellFormed = true ∧
      (SourceCommand.mk .new (some (.int 4294967296))).wellFormed = false := by decide
theorem test_witness_StepRunsDecodedInstruction :
    (offered (ref 5) [.command 0x4DEADBEEF#36, .reset]).inputs = .command 0x4DEADBEEF#36 :: [.reset] ∧
      decode 0x4DEADBEEF#36 = .ok .next := by decide
theorem test_witness_ReservedOpcodeReportsIllegal :
    (offered (ref 5) [.command 0x5DEADBEEF#36]).inputs = .command 0x5DEADBEEF#36 :: [] ∧
      (cmdOp 0x5DEADBEEF#36).toNat ∈ [0x5, 0x6, 0x7, 0xC, 0xD, 0xE, 0xF] ∧
      (cmdOp 0xF00000000#36).toNat ∈ [0x5, 0x6, 0x7, 0xC, 0xD, 0xE, 0xF] := by decide
theorem test_witness_ResetAndNewLeaveZeroState :
    (offered afterHundred [.reset]).inputs = .reset :: [] ∧ (1#32).toNat ≠ 0 := by decide
theorem test_witness_AnswersInResetState :
    (1#32 : Word) ≠ 0#32 ∧ Instr.getStep ∈ [Instr.getStep, .getSpeed, .getDelay, .getPhase] ∧
      (cmdOp 0x5DEADBEEF#36).toNat ∈ [0x5, 0x6, 0x7, 0xC, 0xD, 0xE, 0xF] := by decide
/-- A command, a reset edge, and an empty stream. -/
theorem test_witness_EveryEventIsAnswered :
    (offered (ref 5) [.command 0x400000000#36]).inputs = .command 0x400000000#36 :: [] ∧
      (offered (ref 5) [.reset]).inputs = .reset :: [] ∧ (ref 5).inputs.tail = [] := by decide
theorem test_witness_IdlePortHoldsRegisters : (ref 5).inputs = [] := by decide
theorem test_witness_NewReinitialisesTheBlock : (1#32 : Word) ≠ 0#32 ∧ (4294967295#32 : Word) ≠ 0#32 := by decide

/-- Rejected: sign, a first delay of 255, and one of 4294984072 (V11, V13, V15). Accepted, at rest: the first delays 256
and 4294967295. Accepted, moving: V16. -/
theorem test_witness_SetAccelerationWholeRule :
    (2147483648#32 : Word).toInt ≤ 0 ∧
      firstDelay 1000 233971713 = 255 ∧ firstDelay 4294967295 15333450 = 4294984072 ∧
      0 < (233971712#32 : Word).toInt ∧ firstDelay 1000 233971712 = 256 ∧
      0 < (15333451#32 : Word).toInt ∧ firstDelay 4294967295 15333451 = 4294967295 ∧
      (regs 1000 0 0 0 0 0 0 0 0 .stopped).tps.toNat = 1000 ∧
      (regs 4294967295 0 0 0 0 0 0 0 0 .stopped).phase = .stopped ∧
      0 < (512000#32 : Word).toInt ∧ 256 ≤ firstDelay 1000000 512000 ∧ afterHundred.phase ≠ .stopped := by decide
theorem test_witness_AccelerationGuardIsExact :
    State.reset.tps.toNat = 0 ∧ (regs 1000 0 0 0 0 0 0 0 0 .stopped).tps.toNat = 1000 ∧
      (ref 0).tps.toNat = 1000000 ∧ (regs 72000000 0 0 0 0 0 0 0 0 .stopped).tps.toNat = 72000000 := by decide
theorem test_witness_AccelerationAtRestSetsSentinel :
    (regs 1000 0 0 0 0 0 0 0 0 .stopped).Inv ∧ (regs 1000 0 0 0 0 0 0 0 0 .stopped).phase = .stopped ∧
      0 < (233971712#32 : Word).toInt ∧ 256 ≤ firstDelay 1000 233971712 ∧
      firstDelay 1000 233971712 ≤ 4294967295 := by decide
theorem test_witness_AccelerationWhileMovingResyncs :
    afterHundred.Inv ∧ afterHundred.phase ≠ .stopped ∧ 0 < (512000#32 : Word).toInt ∧
      256 ≤ firstDelay 1000000 512000 ∧ firstDelay 1000000 512000 ≤ 4294967295 := by decide
theorem test_witness_SameAccelerationAtRestChangesNothing :
    (ref 5).Inv ∧ (ref 5).phase = .stopped ∧ (ref 5).accel.toNat ≠ 0 := by decide

/-- Rejected: sign, a cruise delay of 255 and one of 4369066667 (V22, V23). Accepted: 256 and 4294967295 (V23, V26). -/
theorem test_witness_SetTargetSpeedWritesTargetSpeedOnly :
    (2147483648#32 : Word).toInt ≤ 0 ∧ cruiseDelay 1000000 257003922 = 255 ∧ cruiseDelay 1000000 15 = 4369066667 ∧
      0 < (257003921#32 : Word).toInt ∧ cruiseDelay (ref 0).tps.toNat (257003921#32 : Word).toNat = 256 ∧
      0 < (65536#32 : Word).toInt ∧ cruiseDelay 4294967295 65536 = 4294967295 := by decide
theorem test_witness_SpeedGuardIsExact :
    State.reset.tps.toNat = 0 ∧ (regs 1000 0 0 0 0 0 0 0 0 .stopped).tps.toNat = 1000 ∧
      (ref 0).tps.toNat = 1000000 ∧ (regs 72000000 0 0 0 0 0 0 0 0 .stopped).tps.toNat = 72000000 := by decide
theorem test_witness_InvalidArgumentExactlyWhenListed :
    exec (.setAcceleration 0#32) (ref 5) = .next { ref 5 with rsp := some 0x200000000#34 } ∧
      State.rspStatus { ref 5 with rsp := some 0x200000000#34 } = some 2#2 ∧
      State.reset.tps.toNat = 0 ∧
      exec (.setTargetSpeed 1#32) State.reset = .next { State.reset with rsp := some 0x200000000#34 } := ⟨rfl, rfl, rfl, rfl⟩
theorem test_witness_RejectionIsAtomic :
    exec (.setAcceleration 0#32) afterHundred = .next { afterHundred with rsp := some 0x200000000#34 } ∧
      State.rspStatus { afterHundred with rsp := some 0x200000000#34 } = some 2#2 ∧
      afterHundred.tps = (ref 5).tps ∧
      exec (.setAcceleration 0#32) (ref 5) = .next { ref 5 with rsp := some 0x200000000#34 } := ⟨rfl, rfl, rfl, rfl⟩
theorem test_witness_ErrorsLeaveNoTrace :
    execWord 0x5DEADBEEF#36 (ref 2) = .next { ref 2 with rsp := some 0x300000000#34 } ∧
      State.rspStatus { ref 2 with rsp := some 0x300000000#34 } = some 3#2 ∧
      execWord 0x1FFFFFFFF#36 afterHundred = .next { afterHundred with rsp := some 0x200000000#34 } ∧
      State.rspStatus { afterHundred with rsp := some 0x200000000#34 } = some 2#2 := ⟨rfl, rfl, rfl, rfl⟩
theorem test_witness_SettersCommuteAndTakeNoStep :
    exec (.setAcceleration 307200#32) (ref 0) =
        .next { ref 0 with accel := 307200#32, delay := 7064980#32, rsp := some 0#34 } ∧
      exec (.setTargetSpeed 102400#32) { ref 0 with accel := 307200#32, delay := 7064980#32, rsp := some 0#34 } =
        .next { ref 0 with accel := 307200#32, delay := 7064980#32, targetSpeed := 102400#32, rsp := some 0#34 } ∧
      exec (.setTargetSpeed 102400#32) (ref 0) = .next { ref 0 with targetSpeed := 102400#32, rsp := some 0#34 } ∧
      exec (.setAcceleration 307200#32) { ref 0 with targetSpeed := 102400#32, rsp := some 0#34 } =
        .next { ref 0 with accel := 307200#32, delay := 7064980#32, targetSpeed := 102400#32, rsp := some 0#34 } :=
  ⟨rfl, rfl, rfl, rfl⟩
theorem test_witness_RepeatedCommandsAreIdempotent :
    Instr.setTargetStep 10#32 ≠ .next ∧
      exec (.setTargetStep 10#32) (ref 5) = .next { ref 10 with rsp := some 0#34 } ∧
      exec .next (ref 0) = .next { ref 0 with rsp := some 0x1007617A0#34 } ∧
      State.rspStatus { ref 0 with rsp := some 0x1007617A0#34 } = some 1#2 := ⟨by decide, rfl, rfl, rfl⟩
theorem test_witness_ReadsDoNotDisturbTheRamp :
    (∀ e, (fun e : PortEvent => match e with
        | .command w => decide ((cmdOp w).toNat ∈ [0x8, 0x9, 0xA, 0xB])
        | .reset => false) e = true ↔ ∃ w, e = .command w ∧ (cmdOp w).toNat ∈ [0x8, 0x9, 0xA, 0xB]) ∧
      (ref 5).registers = (offered (ref 5) [.reset]).registers ∧
      execWord 0x2000000FF#36 (ref 5) = .next { ref 255 with rsp := some 0#34 } ∧
      execWord 0x2000000FF#36 (offered (ref 5) [.reset]) =
        .next { ref 255 with inputs := [.reset], rsp := some 0#34 } := by
  refine ⟨fun e => ?_, rfl, rfl, rfl⟩
  cases e with
  | reset => simp
  | command w => simp

theorem test_witness_NextUnconfiguredAnswersDone :
    (regs 1000000 256000 5 0 0 0 7739296 0 0 .stopped).Inv ∧
      (regs 1000000 256000 5 0 0 0 7739296 0 0 .stopped).targetSpeed = 0#32 ∧
      State.reset.Inv ∧ State.reset.accel = 0#32 := ⟨by decide, by decide, by decide, by decide⟩

/-- V36, and V35 (c). -/
theorem test_witness_NextInTerminalStateAnswersDone :
    ((ref 0).Inv ∧ (ref 0).Configured ∧ (ref 0).targetStep.toNat ≤ (ref 0).step.toNat ∧ (ref 0).phase = .stopped) ∧
      ∃ s, s = regs 1000000 256000 1 204800 1 8467 7739296 0 1 .accelerating ∧
        s.Inv ∧ s.targetStep.toNat ≤ s.step.toNat ∧ s.phase ≠ .stopped ∧ s.rampIndex.toNat = 1 :=
  ⟨by decide, _, rfl, by decide⟩
theorem test_witness_NextSeedsFromRest :
    (ref 1).Inv ∧ (ref 1).Configured ∧ (ref 1).phase = .stopped ∧ (ref 1).step.toNat < (ref 1).targetStep.toNat := by
  decide

/-- Call 3 of V30 with `T = 5`: `rem = n + 1`. -/
theorem test_witness_NextAccelerates :
    ∃ s, s = regs 1000000 256000 5 204800 2 14113 4643578 2 2 .accelerating ∧
      s.Inv ∧ s.phase ≠ .stopped ∧ s.step.toNat + (2 + 1) = s.targetStep.toNat ∧
      2 = (if s.phase = .accelerating then s.rest.toNat else 0) ∧
      cruiseDelay s.tps.toNat s.targetSpeed.toNat < 4643578 ∧
      cruiseDelay s.tps.toNat s.targetSpeed.toNat < 4643578 - (2 * 4643578 + 2) / (4 * 2 + 1) := ⟨_, rfl, by decide⟩

/-- Call 6 of V32. -/
theorem test_witness_NextClampsAtTheCap :
    beforeCap.Inv ∧ beforeCap.phase ≠ .stopped ∧ beforeCap.delay.toNat = 2696497 ∧ beforeCap.rampIndex.toNat = 5 ∧
      beforeCap.step.toNat + (5 + 1) ≤ beforeCap.targetStep.toNat ∧
      cruiseDelay beforeCap.tps.toNat beforeCap.targetSpeed.toNat < 2696497 ∧
      2696497 - (2 * 2696497 + 1) / (4 * 5 + 1) ≤ cruiseDelay beforeCap.tps.toNat beforeCap.targetSpeed.toNat := by
  decide

/-- The target far behind (V35 (a)), and exactly `n - 1` steps ahead (call 96 of V32). -/
theorem test_witness_NextBrakesInsideBrakingDistance :
    (pulledBack.Inv ∧ 2 ≤ pulledBack.rampIndex.toNat ∧
      pulledBack.targetStep.toNat ≤ pulledBack.step.toNat + (pulledBack.rampIndex.toNat - 1)) ∧
      beforeBraking.Inv ∧ 2 ≤ beforeBraking.rampIndex.toNat ∧
      beforeBraking.targetStep.toNat = beforeBraking.step.toNat + (beforeBraking.rampIndex.toNat - 1) :=
  ⟨by decide, by decide⟩

/-- The three clauses: V35 (d) on call 1 and on call 241, and ordinal 1 with the cap lowered. -/
theorem test_witness_NextDeceleratesToTheCap :
    (capLowered.Inv ∧ capLowered.phase ≠ .stopped ∧
      capLowered.step.toNat + capLowered.rampIndex.toNat ≤ capLowered.targetStep.toNat ∧
      capLowered.delay.toNat < 640000 ∧ 640000 = cruiseDelay 1000000 102400 ∧
      capLowered.delay.toNat + (2 * capLowered.delay.toNat + 0) / (4 * (321 - 1) - 1) < 640000) ∧
    (beforeLowCap.Inv ∧ beforeLowCap.delay.toNat < 640000 ∧
      640000 ≤ beforeLowCap.delay.toNat + (2 * beforeLowCap.delay.toNat + 0) / (4 * (81 - 1) - 1)) ∧
    ∃ s, s = regs 1000000 256000 2 5120 1 8467 7739296 0 1 .accelerating ∧
      s.Inv ∧ s.phase ≠ .stopped ∧ s.step.toNat + s.rampIndex.toNat = s.targetStep.toNat ∧
      s.delay.toNat < cruiseDelay s.tps.toNat s.targetSpeed.toNat ∧ s.rampIndex.toNat = 1 :=
  ⟨by decide, by decide, _, rfl, by decide⟩

/-- At the cap with `rem = n` (V32 at step 94), and the hold of an even ramp (call 3 of V30 with `T = 4`). -/
theorem test_witness_NextHolds :
    (∃ s, s = regs 1000000 256000 100 25600 94 25600 2560000 0 6 .cruising ∧ s.Inv ∧ s.phase ≠ .stopped ∧
      s.delay.toNat = cruiseDelay s.tps.toNat s.targetSpeed.toNat ∧ s.step.toNat + 6 = s.targetStep.toNat) ∧
    ∃ s, s = regs 1000000 256000 4 204800 2 14113 4643578 2 2 .accelerating ∧ s.Inv ∧ s.phase ≠ .stopped ∧
      cruiseDelay s.tps.toNat s.targetSpeed.toNat < s.delay.toNat ∧ s.step.toNat + 2 = s.targetStep.toNat :=
  ⟨⟨_, rfl, by decide⟩, _, rfl, by decide⟩
theorem test_witness_OnlyNextStartsARamp :
    exec .next (ref 2) = .next
      { ref 2 with
        step := 1#32, speed := 8467#32, delay := 7739296#32, rampIndex := 1#32, phase := .accelerating,
        rsp := some 7739296#34 } ∧ (ref 2).phase = .stopped ∧ (ref 2).Inv := ⟨rfl, rfl, by decide⟩

/-- An accelerating step whose quotient is at least 1, and a braking one. -/
theorem test_witness_DelayIsMonotoneInEachPhase :
    (afterHundred.Inv ∧ afterHundred.phase ≠ .stopped ∧
      4 * afterHundred.rampIndex.toNat + 1 ≤ 2 * afterHundred.delay.toNat) ∧
    (pulledBack.Inv ∧ pulledBack.phase ≠ .stopped) ∧
    exec .next pulledBack = .next
      { pulledBack with
        step := 51#32, speed := 79728#32, delay := 821988#32, rest := 11#32, rampIndex := 49#32,
        phase := .decelerating, rsp := some 821988#34 } := ⟨by decide, by decide, rfl⟩

theorem test_witness_IsqrtIsTheIntegerSquareRoot :
    1981260 * 1981260 ≤ 3925393950113 ∧ 3925393950113 < (1981260 + 1) * (1981260 + 1) ∧ 3925393950113 < 2 ^ 60 := by
  decide
theorem test_witness_SignedReadingIsTwosComplement :
    (2147483647#32 : Word).toNat < 2 ^ 31 ∧ 2 ^ 31 ≤ (2147483648#32 : Word).toNat := by decide
theorem test_witness_FirstDelayFormula : (1 : Nat) ≠ 0 ∧ (4294967295 : Nat) < 2 ^ 32 := by decide
theorem test_witness_CruiseDelayIsTheCeiling :
    (10922 : Nat) ≠ 0 ∧ 1000000 * 65536 ≤ 10922 * 6000367 ∧ (1000000 : Nat) < 2 ^ 32 := by decide
theorem test_witness_SpeedOfDelayRespectsTheCap :
    (1 : Nat) ≤ 6000367 ∧ (10922 : Nat) ≠ 0 ∧ cruiseDelay 1000000 10922 ≤ 6000367 := by decide
/-- The ranges at their ends; ordinal 1, where only the acceleration clauses speak, and ordinal 2; a quotient of at most
the delay; and the root of the worked example of R35. -/
theorem test_witness_SixtyFourBitArithmeticAgrees :
    ((4294967295 : Nat) < 2 ^ 32 ∧ (1 : Nat) ≤ 2147483647 ∧ (2147483647 : Nat) < 2 ^ 31 ∧ (1 : Nat) ≤ 1 ∧
      (1 : Nat) < 2 ^ 30 ∧ (2 : Nat) ≤ 2 ∧ (2 : Nat) ≤ 1073741823 ∧ (1073741823 : Nat) < 2 ^ 30) ∧
    (2 * 7739296 + 0) / (4 * 1 + 1) ≤ 7739296 ∧ (wide 1981260).toNat < 2 ^ 32 ∧
      wide 1981260 * wide 1981260 ≤ (913952#64 <<< 40) / wide 256000 ∧
      (913952#64 <<< 40) / wide 256000 < (wide 1981260 + 1#64) * (wide 1981260 + 1#64) :=
  ⟨by decide, by decide, by decide, by decide, by decide⟩
theorem test_witness_RegistersAreWrittenAsTheTableSays :
    exec (.setAcceleration 512000#32) afterHundred =
      .next { afterHundred with accel := 512000#32, rest := 0#32, rampIndex := 50#32, rsp := some 0#34 } ∧
      (512000#32 : Word) ≠ afterHundred.accel ∧ afterHundred.phase ≠ .stopped := ⟨rfl, by decide, by decide⟩
theorem test_witness_EveryStepKeepsTheInvariant :
    afterHundred.Inv ∧ pulledBack.Inv ∧ lastBraking.Inv ∧
      step (offered afterHundred [.reset]) = .next State.reset := ⟨by decide, by decide, by decide, rfl⟩
theorem test_witness_EveryRunIsSafe : (offered afterHundred [.command 0x400000000#36, .reset]).Inv := by decide
theorem test_witness_SpeedStaysWithinTheCap :
    beforeCap.Inv ∧ beforeCap.WithinCap ∧
      exec .next beforeCap = .next
        { beforeCap with
          step := 6#32, speed := 25600#32, delay := 2560000#32, rest := 0#32, rampIndex := 6#32, phase := .cruising,
          rsp := some 2560000#34 } := ⟨by decide, by decide, rfl⟩

/-- The last step of V32 comes to rest on the target. -/
theorem test_witness_UndisturbedRampNeverOvershoots :
    lastBraking.Inv ∧ lastBraking.OnTrack ∧
      exec .next lastBraking = .next
        { lastBraking with
          step := 100#32, speed := 0#32, delay := 7739296#32, rest := 0#32, rampIndex := 0#32, phase := .stopped,
          rsp := some 8120958#34 } ∧ lastBraking.phase ≠ .stopped := ⟨by decide, by decide, rfl, by decide⟩

/-- Ordinal 2 (the last braking step) and ordinal 6 (the first). -/
theorem test_witness_PointOfNoReturnKeepsEquality :
    (lastBraking.Inv ∧ lastBraking.OnTrack ∧ lastBraking.Braking ∧ lastBraking.rampIndex.toNat = 2) ∧
      beforeBraking.Inv ∧ beforeBraking.OnTrack ∧ beforeBraking.Braking ∧ 2 < beforeBraking.rampIndex.toNat ∧
      exec .next beforeBraking = .next
        { beforeBraking with
          step := 96#32, speed := 23161#32, delay := 2829473#32, rest := 13#32, rampIndex := 5#32,
          phase := .decelerating, rsp := some 2829473#34 } :=
  ⟨by decide, by decide, by decide, by decide, by decide, rfl⟩
theorem test_witness_RampTakesExactlyTheRemainingSteps :
    ∃ s, s = offered (ref 2) (List.replicate 3 (.command 0x400000000#36)) ∧ s.Inv ∧ s.Configured ∧ s.OnTrack ∧
      s.inputs = List.replicate (s.targetStep.toNat - s.step.toNat + 1) (.command 0x400000000#36) :=
  ⟨_, rfl, by decide⟩
theorem test_witness_BrakingTakesIndexMinusOneSteps :
    ∃ s, s = offered beforeBraking (List.replicate 5 (.command 0x400000000#36) ++ [.reset]) ∧ s.Inv ∧ s.Braking ∧
      s.step.toNat + (s.rampIndex.toNat - 1) ≤ 4294967295 ∧
      s.inputs = List.replicate (s.rampIndex.toNat - 1) (.command 0x400000000#36) ++ [.reset] := ⟨_, rfl, by decide⟩

end Sys2Proof.Tests
end

section
/-! SUPPORT. The statements of 00_scope.md: the integer square root (R14), the signed reading of an operand (R17) and the
event of a command (R12, R18), each said once as a rewriting rule of the model's function and then used. -/

namespace Sys2Proof.Machine

/-! ### The integer square root (00_scope.md R14) -/

/-- Each round halves the interval `[root, root + 2 ^ k)` that holds the root: the bit tested is set exactly when
the root lies in the upper half. -/
theorem isqrtBits_eq_sqrt {q k root : Nat} (hlo : root ≤ Nat.sqrt q) (hhi : Nat.sqrt q < root + 2 ^ k) :
    isqrtBits q k root = Nat.sqrt q := by
  induction k generalizing root with
  | zero =>
    have hroot : root = Nat.sqrt q := by omega
    exact hroot
  | succ k ih =>
    have hhalf : 2 ^ (k + 1) = 2 ^ k + 2 ^ k := by omega
    rw [isqrtBits]
    split
    case isTrue hbit => exact ih (Nat.le_sqrt.mpr hbit) (by omega)
    case isFalse hbit => exact ih hlo (by rwa [← Nat.le_sqrt, not_le] at hbit)

/-- `log2 q / 2 + 1` bits are enough for the root of `q`. -/
theorem sqrt_lt_two_pow_half_log2 (q : Nat) : Nat.sqrt q < 2 ^ (Nat.log2 q / 2 + 1) := by
  rw [Nat.sqrt_lt, ← pow_add]
  calc q < 2 ^ (Nat.log2 q + 1) := Nat.lt_log2_self
    _ ≤ 2 ^ (Nat.log2 q / 2 + 1 + (Nat.log2 q / 2 + 1)) := Nat.pow_le_pow_right (by omega) (by omega)

theorem isqrt_eq_sqrt (q : Nat) : isqrt q = Nat.sqrt q :=
  isqrtBits_eq_sqrt (Nat.zero_le _) (by simpa using sqrt_lt_two_pow_half_log2 q)

/-- Settles O40: `isqrt` is the library's square root, and the library's facts carry over. -/
theorem isqrtIsTheIntegerSquareRoot : Obligations.IsqrtIsTheIntegerSquareRoot := by
  unfold Obligations.IsqrtIsTheIntegerSquareRoot
  intro q
  rw [isqrt_eq_sqrt]
  refine ⟨Nat.sqrt_le q, Nat.lt_succ_sqrt q, fun s hle hlt => Nat.eq_sqrt.mpr ⟨hle, hlt⟩, fun hq => ?_⟩
  exact Nat.sqrt_lt.mpr (by omega)

/-! ### The signed reading of an operand (00_scope.md R17) -/

theorem sx32_of_lt {v : Word} (h : v.toNat < 2 ^ 31) : sx32 v = v.toNat := if_pos h

theorem sx32_of_ge {v : Word} (h : 2 ^ 31 ≤ v.toNat) : sx32 v = (v.toNat : Int) - 4294967296 :=
  if_neg (Nat.not_lt.mpr h)

theorem sx32_eq_toInt (v : Word) : sx32 v = v.toInt := by
  rw [BitVec.toInt_eq_toNat_cond]
  rcases Nat.lt_or_ge v.toNat (2 ^ 31) with h | h
  · rw [sx32_of_lt h, if_pos (by omega)]
  · rw [sx32_of_ge h, if_neg (by omega)]
    rfl

/-- Settles O41. -/
theorem signedReadingIsTwosComplement : Obligations.SignedReadingIsTwosComplement :=
  fun v => ⟨sx32_eq_toInt v, sx32_of_lt, sx32_of_ge⟩

/-! ### The event of a command (00_scope.md R12, R18) -/

theorem State.takeEvent_of_inputs_cons {s : State} {e : PortEvent} {later : List PortEvent}
    (h : s.inputs = e :: later) : s.takeEvent = { s with inputs := later, rsp := none } := by
  rw [State.takeEvent, h, List.tail_cons]

theorem step_of_command {s : State} {w : CmdWord} {later : List PortEvent}
    (h : s.inputs = .command w :: later) :
    step s = execWord w { s with inputs := later, rsp := none } := by
  rw [← State.takeEvent_of_inputs_cons h]
  simp only [step, h]

theorem execWord_of_decode_ok {w : CmdWord} {i : Instr} (h : decode w = .ok i) (s : State) :
    execWord w s = exec i s := by
  simp only [execWord, h]

/-- Settles O8: the event is taken, then its word is decoded and executed. -/
theorem stepRunsDecodedInstruction : Obligations.StepRunsDecodedInstruction := by
  unfold Obligations.StepRunsDecodedInstruction
  intro s w later i hin hdec
  rw [step_of_command hin, execWord_of_decode_ok hdec]

end Sys2Proof.Machine
end

section
/-! SUPPORT. The statements of 10_state.md: the derived values (R35 to R37), the state after reset and NEW (R43), the
writers of each register (R33), the invariant of reachable states (R38 and the register ranges), and the cap on the speed
(R39 (a)). -/

namespace Sys2Proof.Machine

/-! ### The first delay (10_state.md R35) -/

theorem firstDelay_zero (F : Nat) : firstDelay F 0 = 0 := if_pos rfl

theorem firstDelay_eq {F A : Nat} (hA : A ≠ 0) :
    firstDelay F A = F * Nat.sqrt (913952 * 2 ^ 40 / A) / 1000 / 256 := by
  rw [firstDelay, if_neg hA, isqrt_eq_sqrt, Nat.shiftLeft_eq, Nat.shiftRight_eq_div_pow]

/-- The quotient under the root is largest at `A = 1`, and `913952 < 2 ^ 20` (10_state.md R35). -/
theorem seedQuotient_lt (A : Nat) : 913952 * 2 ^ 40 / A < 2 ^ 60 :=
  (Nat.div_le_self _ A).trans_lt (by norm_num)

theorem sqrt_seedQuotient_lt (A : Nat) : Nat.sqrt (913952 * 2 ^ 40 / A) < 2 ^ 30 :=
  Nat.sqrt_lt.mpr (seedQuotient_lt A)

/-- The root of the worked example of 10_state.md R35. -/
theorem sqrt_seedQuotient_example : Nat.sqrt 3925393950113 = 1981260 :=
  (Nat.eq_sqrt.mpr ⟨by norm_num, by norm_num⟩).symm

/-- Settles O42: the formula over the library's root, and the worked example through it. -/
theorem firstDelayFormula : Obligations.FirstDelayFormula := by
  unfold Obligations.FirstDelayFormula
  refine ⟨fun F A hA => ⟨firstDelay_eq hA, seedQuotient_lt A, sqrt_seedQuotient_lt A, fun hF => ?_⟩,
    firstDelay_zero, by norm_num, by rw [isqrt_eq_sqrt, sqrt_seedQuotient_example], by norm_num, ?_⟩
  · calc F * Nat.sqrt (913952 * 2 ^ 40 / A)
        < 2 ^ 32 * 2 ^ 30 := Nat.mul_lt_mul'' hF (sqrt_seedQuotient_lt A)
      _ = 2 ^ 62 := by norm_num
  · have hq : 913952 * 2 ^ 40 / 256000 = 3925393950113 := by norm_num
    rw [firstDelay_eq (by norm_num), hq, sqrt_seedQuotient_example]

/-! ### The cruise delay (10_state.md R36) -/

theorem cruiseDelay_zero (F : Nat) : cruiseDelay F 0 = 0 := if_pos rfl

/-- `cdiv` is the library's ceiling quotient (00_scope.md R13). -/
theorem cdiv_eq_ceilDiv (a b : Nat) : cdiv a b = a ⌈/⌉ b := (Nat.ceilDiv_eq_add_pred_div a b).symm

/-- The cruise delay is the least `d` with `F * 2 ^ 16 ≤ V * d`, as the adjunction of the ceiling quotient. -/
theorem cruiseDelay_le_iff {F V : Nat} (hV : V ≠ 0) (d : Nat) : cruiseDelay F V ≤ d ↔ F * 65536 ≤ V * d := by
  rw [cruiseDelay, if_neg hV, cdiv_eq_ceilDiv, Nat.shiftLeft_eq]
  exact ceilDiv_le_iff_le_mul (Nat.pos_of_ne_zero hV)

/-- A delay at or above the cruise delay gives a truncated speed of at most the cap (10_state.md R36, R37). -/
theorem truncatedSpeed_le {F V d : Nat} (hV : V ≠ 0) (hd : cruiseDelay F V ≤ d) : F * 65536 / d ≤ V :=
  Nat.div_le_of_le_mul (by rw [Nat.mul_comm d V]; exact (cruiseDelay_le_iff hV d).mp hd)

/-- Settles O43. -/
theorem cruiseDelayIsTheCeiling : Obligations.CruiseDelayIsTheCeiling := by
  unfold Obligations.CruiseDelayIsTheCeiling
  exact ⟨fun F V hV => ⟨mul_cruiseDelay_ge hV, fun d => (cruiseDelay_le_iff hV d).mpr,
    truncatedSpeed_le hV le_rfl, by omega⟩, cruiseDelay_zero, by decide⟩

/-! ### The speed of a delay (10_state.md R37) -/

theorem speedOf_eq {F V c : Nat} (hc : 1 ≤ c) :
    speedOf F V c = if c = cruiseDelay F V then V else F * 65536 / c := by
  rw [speedOf, if_neg (show ¬ c = 0 by omega), Nat.shiftLeft_eq]

theorem speedOf_le {F V c : Nat} (hc : 1 ≤ c) (hV : V ≠ 0) (hcd : cruiseDelay F V ≤ c) : speedOf F V c ≤ V := by
  rw [speedOf_eq hc]
  split
  · exact le_rfl
  · exact truncatedSpeed_le hV hcd

/-- Settles O44. -/
theorem speedOfDelayRespectsTheCap : Obligations.SpeedOfDelayRespectsTheCap :=
  fun _ _ _ hc => ⟨speedOf_eq hc, speedOf_le hc⟩

/-! ### Reset and NEW (10_state.md R43) -/

theorem step_of_reset {s : State} {later : List PortEvent} (h : s.inputs = .reset :: later) :
    step s = .next { State.reset with inputs := later } := by
  simp only [step, h, State.acceptReset, List.tail_cons]

theorem cmdReady_of_reset {s : State} {later : List PortEvent} (h : s.inputs = .reset :: later) :
    s.cmdReady = false := by
  simp only [State.cmdReady, h]

theorem execNew_of_ne_zero {F : Word} (hF : F.toNat ≠ 0) (s : State) :
    execNew F s = .next { State.reset with tps := F, inputs := s.inputs, rsp := some (rspWord .ok 0#32) } := by
  rw [execNew, if_neg hF, respond_eq]
  rfl

/-- Settles O10. -/
theorem resetAndNewLeaveZeroState : Obligations.ResetAndNewLeaveZeroState := by
  unfold Obligations.ResetAndNewLeaveZeroState
  exact ⟨rfl, fun _ _ h => ⟨cmdReady_of_reset h, step_of_reset h⟩, fun s _ hF => execNew_of_ne_zero hF s⟩

/-! ### Which operation writes which register (10_state.md R33) -/

/-- A step writes no configuration register and leaves the host's stream (41_stepping.md R132). -/
theorem afterStep_sameConfiguration (s : State) (p : RampPoint) : s.SameConfiguration (s.afterStep p) := by
  unfold State.afterStep
  split <;> exact ⟨rfl, rfl, rfl, rfl, rfl⟩

/-- NEXT, whatever it answers, writes no configuration register and leaves the host's stream. -/
theorem execNext_sameConfiguration {s t : State} (h : execNext s = .next t) : s.SameConfiguration t := by
  obtain ⟨-, rfl⟩ | ⟨-, -, -, -, rfl⟩ | ⟨-, -, -, -, rfl⟩ | ⟨-, rfl⟩ := execNext_cases h
  · exact ⟨rfl, rfl, rfl, rfl, rfl⟩
  · exact ⟨rfl, rfl, rfl, rfl, rfl⟩
  · exact ⟨rfl, rfl, rfl, rfl, rfl⟩
  · exact afterStep_sameConfiguration s s.rampPoint

/-- Settles O46: the rows of the access table, one operation at a time. -/
theorem registersAreWrittenAsTheTableSays : Obligations.RegistersAreWrittenAsTheTableSays := by
  unfold Obligations.RegistersAreWrittenAsTheTableSays
  intro i s t h
  cases i with
  | new F => obtain ⟨-, rfl⟩ | ⟨-, rfl⟩ := execNew_cases h <;> simp [instrOpcode]
  | setAcceleration a =>
    obtain ⟨-, rfl⟩ | ⟨-, hp, rfl⟩ | ⟨-, hp, rfl⟩ := execSetAcceleration_cases h <;> simp [instrOpcode, *]
  | setTargetStep T => obtain rfl := execSetTargetStep_next h; simp [instrOpcode]
  | setTargetSpeed v => obtain ⟨-, rfl⟩ | ⟨-, rfl⟩ := execSetTargetSpeed_cases h <;> simp [instrOpcode]
  | next =>
    obtain ⟨htps, haccel, htarget, hcap, hin⟩ := execNext_sameConfiguration h
    simp [instrOpcode, htps, haccel, htarget, hcap, hin]
  | getStep => obtain rfl := execGetStep_next h; simp
  | getSpeed => obtain rfl := execGetSpeed_next h; simp
  | getDelay => obtain rfl := execGetDelay_next h; simp
  | getPhase => obtain rfl := execGetPhase_next h; simp

/-! ### The invariant at rest (10_state.md R38) -/

/-- A block at rest with legal settings meets the invariant: its ranges speak of zeros. -/
theorem inv_of_hasComeToRest {t : State} (h : t.HasComeToRest) (ha : t.AccelLegal) (hv : t.CapLegal) : t.Inv := by
  obtain ⟨hp, hspeed, hn, hrest, hd⟩ := h
  refine ⟨iff_of_true hp hn, fun _ => ⟨hspeed, hrest, hd⟩, ha, hv, fun hm => absurd hp hm, ⟨by omega, by omega⟩, ?_⟩
  simp [State.RestBelowDenominator, hp]

theorem hasComeToRest_of_inv {s : State} (hi : s.Inv) (hp : s.phase = .stopped) : s.HasComeToRest := by
  obtain ⟨hpn, hrest, -⟩ := hi
  obtain ⟨hspeed, hr, hd⟩ := hrest hp
  exact ⟨hp, hspeed, hpn.mp hp, hr, hd⟩

/-- The state of 10_state.md R43, reset (`F = 0`) or after `NEW(F)`, meets the invariant. -/
theorem inv_of_zeroState (F : Word) (inputs : List PortEvent) (rsp : Option RspWord) :
    State.Inv { State.reset with tps := F, inputs := inputs, rsp := rsp } :=
  inv_of_hasComeToRest ⟨rfl, rfl, rfl, rfl, (firstDelay_zero F.toNat).symm⟩ (.inl rfl) (.inl rfl)

/-- Settles O47. -/
theorem resetMeetsTheInvariant : Obligations.ResetMeetsTheInvariant := inv_of_zeroState 0#32 [] none

/-- The first delay of a legal acceleration, or of none, fits `DELAY`. -/
theorem seedDelay_lt {s : State} (ha : s.AccelLegal) : s.seedDelay < 2 ^ 32 := by
  rcases ha with h0 | ⟨-, -, hlt⟩
  · rw [State.seedDelay, unsigned_eq_toNat, unsigned_eq_toNat, h0, firstDelay_zero]
    norm_num
  · exact hlt

theorem comeToRest_hasComeToRest {s : State} (ha : s.AccelLegal) : s.comeToRest.HasComeToRest :=
  ⟨rfl, rfl, rfl, rfl, toReg_toNat (seedDelay_lt ha)⟩

/-! ### The setters keep the invariant -/

/-- A resynchronised ordinal is a legal one (40_configuration.md R90). -/
theorem resyncIndex_bounds (speed a : Nat) : 1 ≤ resyncIndex speed a ∧ resyncIndex speed a ≤ 1073741823 := by
  unfold resyncIndex rampIndexMax
  exact ⟨le_min (by norm_num) (Nat.le_add_left 1 _), Nat.min_le_left _ _⟩

theorem execNew_inv {F : Word} {s t : State} (hi : s.Inv) (h : execNew F s = .next t) : t.Inv := by
  obtain ⟨-, rfl⟩ | ⟨-, rfl⟩ := execNew_cases h
  · exact hi
  · exact inv_of_zeroState F _ _

theorem execSetAcceleration_inv {a : Word} {s t : State} (hi : s.Inv) (h : execSetAcceleration a s = .next t) :
    t.Inv := by
  obtain ⟨-, rfl⟩ | ⟨⟨-, ha, hge, hlt⟩, hp, rfl⟩ | ⟨⟨hne, ha, hge, hlt⟩, hp, rfl⟩ := execSetAcceleration_cases h
  · exact hi
  · obtain ⟨-, hspeed, hn, hrest, -⟩ := hasComeToRest_of_inv hi hp
    obtain ⟨-, -, -, hv, -⟩ := hi
    exact inv_of_hasComeToRest ⟨hp, hspeed, hn, hrest, toReg_toNat hlt⟩ (.inr ⟨ha, hge, hlt⟩) hv
  · obtain ⟨-, -, -, hv, hm, ⟨-, hspeed⟩, -⟩ := hi
    obtain ⟨-, hcap, hd, hslow⟩ := hm hp
    obtain ⟨hn1, hnmax⟩ := resyncIndex_bounds s.speed.toNat a.toNat
    have hn : (toReg (resyncIndex s.speed.toNat a.toNat)).toNat = resyncIndex s.speed.toNat a.toNat :=
      toReg_toNat (by omega)
    refine ⟨iff_of_false hp ?_, fun hc => absurd hc hp, .inr ⟨ha, hge, hlt⟩, hv, fun _ => ⟨hne, hcap, hd, hslow⟩,
      ⟨?_, hspeed⟩, fun _ => rfl, fun _ => ?_, fun _ => ?_⟩ <;> simp only [hn, BitVec.toNat_zero] <;> omega

theorem execSetTargetStep_inv {T : Word} {s t : State} (hi : s.Inv) (h : execSetTargetStep T s = .next t) : t.Inv := by
  obtain rfl := execSetTargetStep_next h
  exact hi

theorem execSetTargetSpeed_inv {v : Word} {s t : State} (hi : s.Inv) (h : execSetTargetSpeed v s = .next t) :
    t.Inv := by
  obtain ⟨-, rfl⟩ | ⟨⟨hne, hcap⟩, rfl⟩ := execSetTargetSpeed_cases h
  · exact hi
  · obtain ⟨hpn, hrest, ha, -, hm, hranges⟩ := hi
    refine ⟨hpn, hrest, ha, .inr hcap, fun hp => ?_, hranges⟩
    obtain ⟨haccel, -, hdelay⟩ := hm hp
    exact ⟨haccel, hne, hdelay⟩

/-! ### NEXT keeps the invariant -/

/-- The outcomes of NEXT in a state that meets the invariant: a block at rest answers DONE and writes nothing; a block
comes to rest without a step; or a step is taken (41_stepping.md R106, R107, R132). -/
theorem execNext_cases_of_inv {s t : State} (hi : s.Inv) (h : execNext s = .next t) :
    (s.phase = .stopped ∧ t = { s with rsp := some (rspWord .done s.delay) }) ∨
    (s.SameConfiguration t ∧ t.HasComeToRest) ∨
    (s.TakesStep ∧ s.TookStep t s.rampPoint.delay s.rampPoint.index s.rampPoint.rest s.rampPoint.phase) := by
  obtain ⟨hu, rfl⟩ | ⟨-, -, -, hp, rfl⟩ | ⟨-, -, -, -, rfl⟩ | ⟨ht, -⟩ := execNext_cases h
  · exact .inl ⟨not_not.mp fun hm => (moving_configured hi hm).2 hu, rfl⟩
  · exact .inl ⟨hp, rfl⟩
  · obtain ⟨-, -, ha, -⟩ := hi
    exact .inr (.inl ⟨execNext_sameConfiguration h, comeToRest_hasComeToRest ha⟩)
  · obtain ⟨t', h', htook⟩ := execNext_tookStep hi ht
    obtain rfl : t' = t := Host.Outcome.next.inj (h'.symm.trans h)
    exact .inr (.inr ⟨ht, htook⟩)

/-- The settings that passed their guards are still legal when neither they nor `TPS` were written. -/
theorem settingsLegal_of_sameConfiguration {s t : State} (h : s.SameConfiguration t) (ha : s.AccelLegal)
    (hv : s.CapLegal) : t.AccelLegal ∧ t.CapLegal := by
  obtain ⟨htps, haccel, -, hcap, -⟩ := h
  simp only [State.AccelLegal, State.CapLegal, htps, haccel, hcap]
  exact ⟨ha, hv⟩

/-- A step that writes legal values keeps the invariant. -/
theorem inv_of_tookStep {s t : State} {p : RampPoint} (ha : s.AccelLegal) (hv : s.CapLegal)
    (hu : ¬ s.Unconfigured) (hp : p.Legal s.tps.toNat) (h : s.TookStep t p.delay p.index p.rest p.phase) : t.Inv := by
  obtain ⟨hsame, -, -, -, -, hleft⟩ := h
  obtain ⟨haccel, hcap⟩ := settingsLegal_of_sameConfiguration hsame ha hv
  split at hleft
  · exact inv_of_hasComeToRest hleft haccel hcap
  · obtain ⟨hphase, hdelay, hindex, hrest, hspeed⟩ := hleft
    obtain ⟨htps, heqA, -, heqV, -⟩ := hsame
    obtain ⟨hA, hV⟩ := not_or.mp hu
    have hge := hp.delay_ge
    have hindex1 := hp.index_ge
    have hmoving : t.phase ≠ .stopped := hphase ▸ hp.moving
    have hspeed31 : t.speed.toNat < 2 ^ 31 := by
      rw [hspeed, ← speedOf_eq (by omega)]
      exact speedOf_lt (by omega) hp.delay_slow (hv.resolve_left hV).1
    refine ⟨iff_of_false hmoving (by omega), fun hc => absurd hc hmoving, haccel, hcap,
      fun _ => ⟨heqA ▸ hA, heqV ▸ hV, by omega, ?_⟩, ⟨hindex ▸ hp.index_le, hspeed31⟩, ?_⟩
    · rw [htps, hdelay]
      exact hp.delay_slow
    · rw [State.RestBelowDenominator, hphase, hindex, hrest]
      exact ⟨hp.rest_cruising, hp.rest_accelerating, hp.rest_decelerating⟩

theorem execNext_inv {s t : State} (hi : s.Inv) (h : execNext s = .next t) : t.Inv := by
  obtain ⟨-, -, ha, hv, -⟩ := id hi
  obtain ⟨-, rfl⟩ | ⟨hsame, hrest⟩ | ⟨ht, htook⟩ := execNext_cases_of_inv hi h
  · exact hi
  · obtain ⟨haccel, hcap⟩ := settingsLegal_of_sameConfiguration hsame ha hv
    exact inv_of_hasComeToRest hrest haccel hcap
  · exact inv_of_tookStep ha hv ht.1 (rampPoint_legal hi ht) htook

/-! ### Every event keeps the invariant -/

theorem exec_inv {i : Instr} {s t : State} (hi : s.Inv) (h : exec i s = .next t) : t.Inv := by
  cases i with
  | new F => exact execNew_inv hi h
  | setAcceleration a => exact execSetAcceleration_inv hi h
  | setTargetStep T => exact execSetTargetStep_inv hi h
  | setTargetSpeed v => exact execSetTargetSpeed_inv hi h
  | next => exact execNext_inv hi h
  | getStep => obtain rfl := execGetStep_next h; exact hi
  | getSpeed => obtain rfl := execGetSpeed_next h; exact hi
  | getDelay => obtain rfl := execGetDelay_next h; exact hi
  | getPhase => obtain rfl := execGetPhase_next h; exact hi

theorem execWord_inv {w : CmdWord} {s t : State} (hi : s.Inv) (h : execWord w s = .next t) : t.Inv := by
  obtain ⟨_, -, hexec⟩ | ⟨-, rfl⟩ := execWord_cases h
  · exact exec_inv hi hexec
  · exact hi

/-- Settles O48: an idle port changes no register, a reset edge leaves the zero state, and every operation keeps the
invariant. -/
theorem everyStepKeepsTheInvariant : Obligations.EveryStepKeepsTheInvariant := by
  unfold Obligations.EveryStepKeepsTheInvariant
  intro s t hi h
  obtain ⟨-, rfl⟩ | ⟨_, -, rfl⟩ | ⟨_, _, -, hexec⟩ := step_cases h
  · exact hi
  · exact inv_of_zeroState 0#32 _ none
  · exact execWord_inv (show s.takeEvent.Inv from hi) hexec

/-! ### The cap on the speed (10_state.md R39 (a)) -/

/-- No action shortens a delay within the cap below the cruise delay: the seed and the clamp of an acceleration step stop
there, braking lengthens the delay, holding keeps it, and the floor is not called for. -/
theorem capDelay_le_rampPoint_delay {s : State} (hi : s.Inv) (hw : s.WithinCap) : s.capDelay ≤ s.rampPoint.delay := by
  obtain ⟨hpn, -⟩ := hi
  have hcap (h0 : s.rampIndex.toNat ≠ 0) : s.capDelay ≤ s.delay.toNat := hw fun hc => h0 (hpn.mp hc)
  have hd := s.delay.isLt
  obtain ⟨-, hp⟩ | ⟨h0, -, hp⟩ | ⟨h0, -, hlt, -⟩ | ⟨h0, -, -, hp⟩ | ⟨h0, -, -, hp⟩ := rampPoint_cases s
  · rw [hp]
    exact Nat.le_max_right _ _
  · rw [hp]
    exact (hcap h0).trans (le_min (Nat.le_of_lt_succ hd) (Nat.le_add_right _ _))
  · exact absurd hlt (Nat.not_lt.mpr (hcap h0))
  · rw [hp]
    obtain ⟨-, he⟩ | ⟨hlt, he⟩ := clampAccel_cases s.capDelay (accelStep s.delay.toNat s.rampIndex.toNat
      (if s.phase = .accelerating then s.rest.toNat else 0))
    · rw [he]
    · rw [he]
      exact hlt.le
  · rw [hp]
    exact hcap h0

/-- A block at rest is within any cap. -/
theorem withinCap_of_hasComeToRest {t : State} (h : t.HasComeToRest) :
    t.WithinCap ∧ t.speed.toNat ≤ t.targetSpeed.toNat := by
  obtain ⟨hp, hspeed, -⟩ := h
  exact ⟨fun hm => absurd hp hm, by omega⟩

/-- Settles O50. -/
theorem speedStaysWithinTheCap : Obligations.SpeedStaysWithinTheCap := by
  unfold Obligations.SpeedStaysWithinTheCap
  intro s t hi hw h
  obtain ⟨hp, rfl⟩ | ⟨-, hrest⟩ | ⟨ht, hsame, -, hge, -, -, hleft⟩ := execNext_cases_of_inv hi h
  · exact withinCap_of_hasComeToRest (hasComeToRest_of_inv hi hp)
  · exact withinCap_of_hasComeToRest hrest
  · split at hleft
    · exact withinCap_of_hasComeToRest hleft
    · obtain ⟨-, hdelay, -, -, hspeed⟩ := hleft
      obtain ⟨htps, -, -, hcap, -⟩ := hsame
      have hcd := capDelay_le_rampPoint_delay hi hw
      obtain ⟨-, hV⟩ := not_or.mp ht.1
      rw [← speedOf_eq (by omega)] at hspeed
      refine ⟨fun _ => ?_, ?_⟩
      · rw [htps, hcap, hdelay]
        exact hcd
      · rw [hspeed, hcap]
        exact speedOf_le (by omega) hV hcd

end Sys2Proof.Machine
end

section
/-! SUPPORT. The statement of 20_memory.md on a repeated operation (R55): a second call, right after the first, takes the
same path and writes the values that are already there. -/

namespace Sys2Proof.Machine

/-- Answering with the response that is already on the port changes nothing. -/
theorem respond_of_rsp {s : State} {st : Status} {d : Word} (h : s.rsp = some (rspWord st d)) :
    s.respond st d = .next s := by
  rw [respond_eq, ← h]

/-! ### The configuration operations given twice (40_configuration.md R85 to R94) -/

theorem execNew_repeated {F : Word} {s t u : State} (h : execNew F s = .next t) (h' : execNew F t = .next u) :
    u = t := by
  obtain ⟨hzero, rfl⟩ | ⟨hne, rfl⟩ := execNew_cases h
  · obtain ⟨-, rfl⟩ | ⟨hne, -⟩ := execNew_cases h'
    · rfl
    · exact absurd hzero hne
  · obtain ⟨hzero, -⟩ | ⟨-, rfl⟩ := execNew_cases h'
    · exact absurd hzero hne
    · rfl

/-- The guard reads the operand and `TPS`, the path `PHASE`, and the new ordinal `SPEED`: the first call writes none of
them, so that the second derives the same `DELAY`, or the same `RAMP_INDEX` (40_configuration.md R87, R90). -/
theorem execSetAcceleration_repeated {a : Word} {s t u : State} (h : execSetAcceleration a s = .next t)
    (h' : execSetAcceleration a t = .next u) : u = t := by
  obtain ⟨hrej, rfl⟩ | ⟨hacc, hp, rfl⟩ | ⟨hacc, hp, rfl⟩ := execSetAcceleration_cases h
  · obtain ⟨-, rfl⟩ | ⟨hacc, -⟩ | ⟨hacc, -⟩ := execSetAcceleration_cases h'
    · rfl
    · exact absurd hacc hrej
    · exact absurd hacc hrej
  · obtain ⟨hrej, -⟩ | ⟨-, -, rfl⟩ | ⟨-, hmoving, -⟩ := execSetAcceleration_cases h'
    · exact absurd hacc hrej
    · rfl
    · exact absurd hp hmoving
  · obtain ⟨hrej, -⟩ | ⟨-, hstopped, -⟩ | ⟨-, -, rfl⟩ := execSetAcceleration_cases h'
    · exact absurd hacc hrej
    · exact absurd hstopped hp
    · rfl

theorem execSetTargetSpeed_repeated {v : Word} {s t u : State} (h : execSetTargetSpeed v s = .next t)
    (h' : execSetTargetSpeed v t = .next u) : u = t := by
  obtain ⟨hrej, rfl⟩ | ⟨hacc, rfl⟩ := execSetTargetSpeed_cases h
  · obtain ⟨-, rfl⟩ | ⟨hacc, -⟩ := execSetTargetSpeed_cases h'
    · rfl
    · exact absurd hacc hrej
  · obtain ⟨hrej, -⟩ | ⟨-, rfl⟩ := execSetTargetSpeed_cases h'
    · exact absurd hacc hrej
    · rfl

/-- Every operation but NEXT: the unguarded ones write the operand, or answer a register that no read writes. -/
theorem exec_repeated {i : Instr} {s t u : State} (hi : i ≠ .next) (h : exec i s = .next t)
    (h' : exec i t = .next u) : u = t := by
  cases i with
  | new F => exact execNew_repeated h h'
  | setAcceleration a => exact execSetAcceleration_repeated h h'
  | setTargetStep T => obtain rfl := execSetTargetStep_next h; exact execSetTargetStep_next h'
  | setTargetSpeed v => exact execSetTargetSpeed_repeated h h'
  | next => exact absurd rfl hi
  | getStep => obtain rfl := execGetStep_next h; exact execGetStep_next h'
  | getSpeed => obtain rfl := execGetSpeed_next h; exact execGetSpeed_next h'
  | getDelay => obtain rfl := execGetDelay_next h; exact execGetDelay_next h'
  | getPhase => obtain rfl := execGetPhase_next h; exact execGetPhase_next h'

/-! ### NEXT once it has answered DONE (41_stepping.md R106, R107) -/

theorem rspStatus_of_rsp {s : State} {st : Status} {d : Word} (h : s.rsp = some (rspWord st d)) :
    s.rspStatus = some (statusCode st) := by
  rw [State.rspStatus, h, Option.map_some, rspStatusField_rspWord]

/-- NEXT has nothing left to do: the block is not configured, or it is at rest in the terminal state (41_stepping.md
R106, R107). -/
def State.HasNoStepToTake (s : State) : Prop :=
  s.Unconfigured ∨ (s.remaining = 0 ∧ s.rampIndex.toNat ≤ 1 ∧ s.phase = .stopped)

theorem execNext_of_hasNoStepToTake {s : State} (h : s.HasNoStepToTake) :
    execNext s = s.respond .done s.delay := by
  unfold execNext
  by_cases hu : s.Unconfigured
  · rw [if_pos hu]
  · obtain ⟨hrem, hn, hp⟩ := h.resolve_left hu
    rw [if_neg hu, if_pos ⟨hrem, hn⟩, if_neg (not_not.mpr hp)]

/-- A NEXT that answers DONE leaves nothing to do, coming to rest where the block was still moving, and its datum is the
`DELAY` it leaves. -/
theorem hasNoStepToTake_of_done {s t : State} (h : execNext s = .next t) (hdone : t.rspStatus = some 1#2) :
    t.HasNoStepToTake ∧ t.rsp = some (rspWord .done t.delay) := by
  obtain ⟨hu, rfl⟩ | ⟨-, hrem, hn, hp, rfl⟩ | ⟨-, hrem, -, -, rfl⟩ | ⟨-, rfl⟩ := execNext_cases h
  · exact ⟨.inl hu, rfl⟩
  · exact ⟨.inr ⟨hrem, hn, hp⟩, rfl⟩
  · exact ⟨.inr ⟨hrem, Nat.zero_le 1, rfl⟩, rfl⟩
  · rw [rspStatus_of_rsp rfl] at hdone
    exact absurd hdone (by decide)

theorem execNext_of_done {s t : State} (h : execNext s = .next t) (hdone : t.rspStatus = some 1#2) :
    execNext t = .next t := by
  obtain ⟨hend, hrsp⟩ := hasNoStepToTake_of_done h hdone
  rw [execNext_of_hasNoStepToTake hend, respond_of_rsp hrsp]

/-- Settles O27: every operation answers a next state, and a repeated one answers the state it was given. -/
theorem repeatedCommandsAreIdempotent : Obligations.RepeatedCommandsAreIdempotent := by
  unfold Obligations.RepeatedCommandsAreIdempotent
  refine ⟨fun i s t hi h => ?_, fun s t h hdone => execNext_of_done h hdone⟩
  obtain ⟨u, h', -⟩ := exec_answers i t
  obtain rfl := exec_repeated hi h h'
  exact h'

end Sys2Proof.Machine
end

section
/-! SUPPORT. The statements of 30_encoding.md: the row that a command word selects (R66, R70), decode and encode (R65, R67,
R75), the ignored operands (R73), the reserved opcodes (R72), the response word (R68), and the text of a command (R75). -/

namespace Sys2Proof

/-! ### The value of two fields side by side (30_encoding.md R65, R68) -/

theorem append_toNat {n m : Nat} (x : BitVec n) (y : BitVec m) : (x ++ y).toNat = x.toNat * 2 ^ m + y.toNat := by
  rw [BitVec.toNat_append, ← Nat.shiftLeft_add_eq_or_of_lt y.isLt, Nat.shiftLeft_eq]

/-! ### The row a word selects (30_encoding.md R66, R70) -/

theorem decode_of_assigned {w : CmdWord} {op : Opcode} (h : cmdOp w = opcodeCode op) :
    decode w = .ok (instrOf op (cmdArg w)) := by
  simp only [decode, h, opcodeOf_opcodeCode]

theorem decode_of_reserved {w : CmdWord} (h : opcodeOf (cmdOp w) = none) :
    decode w = .error (.reservedOpcode (cmdOp w)) := by
  simp only [decode, h]

/-- An instruction is read from the words of its own row whose `arg` gives its operand, and from no other. -/
theorem decode_eq_ok_iff {w : CmdWord} {i : Instr} :
    decode w = .ok i ↔ cmdOp w = opcodeCode (instrOpcode i) ∧ instrOf (instrOpcode i) (cmdArg w) = i := by
  constructor
  · intro h
    obtain ⟨op, hop, hdec⟩ | ⟨-, hdec⟩ := decode_cases w
    · obtain rfl : instrOf op (cmdArg w) = i := Except.ok.inj (hdec.symm.trans h)
      rw [instrOpcode_instrOf]
      exact ⟨hop, rfl⟩
    · rw [hdec] at h
      cases h
  · rintro ⟨hop, hi⟩
    rw [decode_of_assigned hop, hi]

theorem decode_eq_error_iff {w : CmdWord} : (∃ e, decode w = .error e) ↔ opcodeOf (cmdOp w) = none := by
  constructor
  · rintro ⟨e, he⟩
    obtain ⟨op, -, hdec⟩ | ⟨hnone, -⟩ := decode_cases w
    · rw [hdec] at he
      cases he
    · exact hnone
  · exact fun h => ⟨_, decode_of_reserved h⟩

/-- The codes without an operation are the seven reserved ones (30_encoding.md R72). -/
theorem opcodeOf_eq_none_iff (c : BitVec 4) :
    opcodeOf c = none ↔ c.toNat ∈ [0x5, 0x6, 0x7, 0xC, 0xD, 0xE, 0xF] := by
  revert c
  decide

/-! ### The match/mask form (30_encoding.md R66) -/

/-- The mask keeps `op` and clears `arg`. -/
theorem and_opcodeMask (w : CmdWord) : w &&& opcodeMask = cmdWord (cmdOp w) 0#32 := by
  have hmask : opcodeMask = BitVec.allOnes 4 ++ 0#32 := rfl
  calc w &&& opcodeMask
    _ = cmdWord (cmdOp w) (cmdArg w) &&& (BitVec.allOnes 4 ++ 0#32) := by rw [cmdWord_fields, hmask]
    _ = cmdWord (cmdOp w) 0#32 := by
      rw [cmdWord, BitVec.and_append, BitVec.and_allOnes, BitVec.and_zero, cmdWord]

/-- `op << 32` is the word of `op` with `arg = 0`. -/
theorem zeroExtend_shiftLeft_eq_cmdWord (c : BitVec 4) : c.zeroExtend 36 <<< 32 = cmdWord c 0#32 := by
  have h : cmdWord c 0#32 = c.setWidth 36 <<< 32 ||| 0#36 := by
    rw [cmdWord, ← BitVec.setWidth_eq (c ++ 0#32), BitVec.setWidth_append_eq_shiftLeft_setWidth_or,
      BitVec.setWidth_zero]
  rw [h, BitVec.or_zero, BitVec.zeroExtend]

theorem cmdOp_eq_iff_mask (w : CmdWord) (c : BitVec 4) : cmdOp w = c ↔ w &&& opcodeMask = c.zeroExtend 36 <<< 32 := by
  rw [and_opcodeMask, zeroExtend_shiftLeft_eq_cmdWord]
  exact (BitVec.append_left_inj 0#32).symm

/-- Settles O3: the row, the mask and the rejection each depend on `op` alone. -/
theorem opAloneSelectsTheRow : Obligations.OpAloneSelectsTheRow := by
  unfold Obligations.OpAloneSelectsTheRow
  refine ⟨rfl, fun w op => ?_, fun w op => cmdOp_eq_iff_mask w (opcodeCode op), fun w => ?_⟩
  · rw [decode_eq_ok_iff, instrOpcode_instrOf]
    exact and_iff_left rfl
  · rw [decode_eq_error_iff, opcodeOf_eq_none_iff]

/-! ### Decode and encode (30_encoding.md R65, R67, R75) -/

/-- The word of two fields is read back by the row of its `op`. -/
theorem decode_cmdWord (op : Opcode) (arg : Word) : decode (cmdWord (opcodeCode op) arg) = .ok (instrOf op arg) := by
  rw [decode_of_assigned (cmdOp_cmdWord _ _), cmdArg_cmdWord]

theorem decode_encode (i : Instr) : decode (encode i) = .ok i := by
  rw [encode, decode_cmdWord, instrOf_instrOpcode]

/-- An operation that takes an operand takes the `arg` field whole (30_encoding.md R67). -/
theorem instrArg_instrOf {op : Opcode} (h : op.takesOperand = true) (arg : Word) : instrArg (instrOf op arg) = arg := by
  cases op with
  | new | setAcceleration | setTargetStep | setTargetSpeed => rfl
  | next | getStep | getSpeed | getDelay | getPhase => cases h

/-- The other operations ignore the `arg` field (30_encoding.md R73). -/
theorem instrOf_of_no_operand {op : Opcode} (h : op.takesOperand = false) (arg arg' : Word) :
    instrOf op arg = instrOf op arg' := by
  cases op with
  | new | setAcceleration | setTargetStep | setTargetSpeed => cases h
  | next | getStep | getSpeed | getDelay | getPhase => rfl

theorem encode_of_decode {w : CmdWord} {i : Instr} (h : decode w = .ok i)
    (htakes : (instrOpcode i).takesOperand = true) : encode i = w := by
  obtain ⟨hop, hi⟩ := decode_eq_ok_iff.mp h
  have harg : instrArg i = cmdArg w := by
    rw [← instrArg_instrOf htakes (cmdArg w), hi]
  rw [encode, ← hop, harg, cmdWord_fields]

/-- Settles O2: both directions go through the row that the word's `op` selects. -/
theorem decodeAndEncodeAgree : Obligations.DecodeAndEncodeAgree := by
  unfold Obligations.DecodeAndEncodeAgree
  refine ⟨decode_encode, fun w i => encode_of_decode, fun w i h => ?_⟩
  obtain ⟨hop, -⟩ := decode_eq_ok_iff.mp h
  rw [encode, cmdOp_cmdWord, hop]

/-- Settles O1: each word is its two fields, written out (95_test_vectors.md V3, V4, V6). -/
theorem writtenOutWordsDecode : Obligations.WrittenOutWordsDecode :=
  ⟨decode_cmdWord .new 1000000#32, decode_cmdWord .setAcceleration 256000#32,
    decode_cmdWord .setTargetStep 1000#32, decode_cmdWord .setTargetSpeed 204800#32,
    decode_cmdWord .next 0#32, decode_cmdWord .next 0xDEADBEEF#32, decode_cmdWord .getStep 0#32,
    decode_cmdWord .getSpeed 0#32, decode_cmdWord .getDelay 0#32, decode_cmdWord .getPhase 1#32,
    decode_of_reserved (w := cmdWord 0x5#4 0xDEADBEEF#32) rfl⟩

/-! ### The assembler (30_encoding.md R75) -/

theorem assemble_of_wellFormed {c : SourceCommand} (h : c.wellFormed = true) :
    assemble c = some (cmdWord (opcodeCode c.opcode) (BitVec.ofNat 32 c.argValue)) := if_pos h

theorem assemble_of_not_wellFormed {c : SourceCommand} (h : c.wellFormed = false) : assemble c = none :=
  if_neg (Bool.eq_false_iff.mp h)

theorem argValue_lt_of_wellFormed {c : SourceCommand} (h : c.wellFormed = true) : c.argValue < 2 ^ 32 := by
  rw [SourceCommand.wellFormed, Bool.and_eq_true] at h
  exact of_decide_eq_true h.2

/-- Settles O6: an operand that fits is written to `arg` unchanged, and the word is read back by its row. -/
theorem assembledWordDecodes : Obligations.AssembledWordDecodes := by
  unfold Obligations.AssembledWordDecodes
  refine fun c => ⟨fun hwf => ⟨_, assemble_of_wellFormed hwf, ?_, decode_cmdWord _ _⟩, assemble_of_not_wellFormed⟩
  rw [cmdWord, append_toNat, BitVec.toNat_ofNat, Nat.mod_eq_of_lt (argValue_lt_of_wellFormed hwf)]

end Sys2Proof

namespace Sys2Proof.Machine

theorem assembleLine_of_parseLine {line : List Char} {c : SourceCommand} (hparse : parseLine line = .ok (some c))
    (hwf : c.wellFormed = true) :
    assembleLine line = .ok (some (cmdWord (opcodeCode c.opcode) (BitVec.ofNat 32 c.argValue))) := by
  simp only [assembleLine, hparse, assemble_of_wellFormed hwf]

theorem assembleLine_of_no_command {line : List Char} (hparse : parseLine line = .ok none) :
    assembleLine line = .ok none := by
  simp only [assembleLine, hparse]

/-- Settles O7: each line is read as the source command written beside it. -/
theorem exampleLinesAssemble : Obligations.ExampleLinesAssemble :=
  ⟨assembleLine_of_parseLine (c := ⟨.new, some (.int 1000000)⟩) (by decide) (by decide),
    assembleLine_of_parseLine (c := ⟨.setAcceleration, some (.shifted8 1000)⟩) (by decide) (by decide),
    assembleLine_of_parseLine (c := ⟨.setTargetStep, some (.int 0x3E8)⟩) (by decide) (by decide),
    assembleLine_of_parseLine (c := ⟨.setTargetSpeed, some (.shifted8 800)⟩) (by decide) (by decide),
    assembleLine_of_parseLine (c := ⟨.next, none⟩) (by decide) (by decide),
    assembleLine_of_parseLine (c := ⟨.getSpeed, none⟩) (by decide) (by decide),
    assembleLine_of_no_command (by decide)⟩

/-! ### Ignored operands (30_encoding.md R73) -/

theorem takesOperand_eq_false_iff (op : Opcode) :
    op.takesOperand = false ↔ (opcodeCode op).toNat ∈ [0x4, 0x8, 0x9, 0xA, 0xB] := by
  cases op <;> decide

theorem decode_eq_of_cmdOp_eq {w w' : CmdWord} (hop : cmdOp w = cmdOp w')
    (hcode : (cmdOp w).toNat ∈ [0x4, 0x8, 0x9, 0xA, 0xB]) : decode w = decode w' := by
  obtain ⟨op, hw, hdec⟩ | ⟨hnone, hdec⟩ := decode_cases w
  · have hno : op.takesOperand = false := by rwa [takesOperand_eq_false_iff, ← hw]
    rw [hdec, decode_of_assigned (hop.symm.trans hw), instrOf_of_no_operand hno]
  · rw [hop] at hnone
    rw [hdec, decode_of_reserved hnone, hop]

theorem execWord_eq_of_decode_eq {w w' : CmdWord} (h : decode w = decode w') (s : State) :
    execWord w s = execWord w' s := by
  simp only [execWord, h]

/-- Settles O4: the row is the same, and its instruction does not hold the operand. -/
theorem ignoredOperandIsIgnored : Obligations.IgnoredOperandIsIgnored := by
  unfold Obligations.IgnoredOperandIsIgnored
  intro w w' hop hcode
  have hdec := decode_eq_of_cmdOp_eq hop hcode
  exact ⟨hdec, execWord_eq_of_decode_eq hdec⟩

/-! ### The response word (30_encoding.md R68, R69) -/

/-- Settles O5: the two fields of a word that `respond` builds. -/
theorem responseWordFields : Obligations.ResponseWordFields := by
  unfold Obligations.ResponseWordFields
  refine ⟨respond_eq, fun st d => ?_, rfl, rfl, rfl, rfl⟩
  exact ⟨rspStatusField_rspWord st d, rspDataField_rspWord st d, append_toNat (statusCode st) d⟩

/-! ### Reserved opcodes (30_encoding.md R72, 60_exceptions.md R152) -/

theorem execWord_of_reserved {w : CmdWord} (h : opcodeOf (cmdOp w) = none) (s : State) :
    execWord w s = .next { s with rsp := some (rspWord .illegal 0#32) } := by
  simp only [execWord, decode_of_reserved h, State.raiseIllegal, respond_eq]

/-- Settles O9: the event is taken, and the answer is all that is written. -/
theorem reservedOpcodeReportsIllegal : Obligations.ReservedOpcodeReportsIllegal := by
  unfold Obligations.ReservedOpcodeReportsIllegal
  intro s w later hin hcode
  have hword : rspWord .illegal 0#32 = 0x300000000#34 := rfl
  rw [step_of_command hin, execWord_of_reserved ((opcodeOf_eq_none_iff _).mpr hcode), hword]

end Sys2Proof.Machine
end

section
/-! SUPPORT. The statements of 40_configuration.md: the guard that each configuration operation puts on its operand and
the atomic rejection (R86, R88, R94, R97), then NEW (R85), SET_ACCELERATION (R87 to R91), SET_TARGET_STEP (R92),
SET_TARGET_SPEED (R93, R94) and the order of the setters (R98). -/

namespace Sys2Proof.Machine

/-! ### The two answers of a configuration operation -/

theorem rspWord_ok_zero : rspWord .ok 0#32 = 0#34 := rfl

theorem rspWord_invalidArgument_zero : rspWord .invalidArgument 0#32 = 0x200000000#34 := rfl

theorem rspData_of_rsp {s : State} {st : Status} {d : Word} (h : s.rsp = some (rspWord st d)) : s.rspData = some d := by
  rw [State.rspData, h, Option.map_some, rspDataField_rspWord]

/-- Only the code of `INVALID_ARGUMENT` is 2 (30_encoding.md R69). -/
theorem rspStatus_eq_two_iff {s : State} {st : Status} {d : Word} (h : s.rsp = some (rspWord st d)) :
    s.rspStatus = some 2#2 ↔ st = .invalidArgument := by
  rw [rspStatus_of_rsp h]
  cases st <;> decide

/-- The four operations of 40_configuration.md. -/
abbrev IsConfiguration (i : Instr) : Prop :=
  instrOpcode i ∈ [Opcode.new, .setAcceleration, .setTargetStep, .setTargetSpeed]

/-- The guard of the operation fails (40_configuration.md R86, R88, R94); the operations without a guard never do. -/
def ArgumentRejected : Instr → State → Prop
  | .new F, _ => F.toNat = 0
  | .setAcceleration a, s => ¬ AccelAccepted a s
  | .setTargetSpeed v, s => ¬ SpeedAccepted v s
  | .setTargetStep _, _ | .next, _ | .getStep, _ | .getSpeed, _ | .getDelay, _ | .getPhase, _ => False

/-- A configuration operation whose guard fails answers `(INVALID_ARGUMENT, 0)` and writes no register; any other
answers `(OK, 0)`. -/
theorem exec_configuration_cases {i : Instr} {s t : State} (hi : IsConfiguration i) (h : exec i s = .next t) :
    (ArgumentRejected i s ∧ t = { s with rsp := some (rspWord .invalidArgument 0#32) }) ∨
    (¬ ArgumentRejected i s ∧ t.rsp = some (rspWord .ok 0#32)) := by
  cases i with
  | new F =>
    obtain ⟨hF, rfl⟩ | ⟨hF, rfl⟩ := execNew_cases h
    · exact .inl ⟨hF, rfl⟩
    · exact .inr ⟨hF, rfl⟩
  | setAcceleration a =>
    obtain ⟨hrej, rfl⟩ | ⟨hacc, -, rfl⟩ | ⟨hacc, -, rfl⟩ := execSetAcceleration_cases h
    · exact .inl ⟨hrej, rfl⟩
    · exact .inr ⟨not_not.mpr hacc, rfl⟩
    · exact .inr ⟨not_not.mpr hacc, rfl⟩
  | setTargetStep T =>
    obtain rfl := execSetTargetStep_next h
    exact .inr ⟨id, rfl⟩
  | setTargetSpeed v =>
    obtain ⟨hrej, rfl⟩ | ⟨hacc, rfl⟩ := execSetTargetSpeed_cases h
    · exact .inl ⟨hrej, rfl⟩
    · exact .inr ⟨not_not.mpr hacc, rfl⟩
  | next | getStep | getSpeed | getDelay | getPhase => exact absurd hi (by decide)

/-- NEXT and the reads answer OK or DONE. -/
theorem rspStatus_ne_two_of_not_configuration {i : Instr} {s t : State} (hi : ¬ IsConfiguration i)
    (h : exec i s = .next t) : t.rspStatus ≠ some 2#2 := by
  have hne {st : Status} {d : Word} (hst : st ≠ .invalidArgument) (hrsp : t.rsp = some (rspWord st d)) :
      t.rspStatus ≠ some 2#2 := fun h2 => hst ((rspStatus_eq_two_iff hrsp).mp h2)
  cases i with
  | new | setAcceleration | setTargetStep | setTargetSpeed => exact absurd (by simp [instrOpcode]) hi
  | next =>
    obtain ⟨-, rfl⟩ | ⟨-, -, -, -, rfl⟩ | ⟨-, -, -, -, rfl⟩ | ⟨-, rfl⟩ := execNext_cases h
    · exact hne (st := .done) (by decide) rfl
    · exact hne (st := .done) (by decide) rfl
    · exact hne (st := .done) (by decide) rfl
    · exact hne (st := .ok) (by decide) rfl
  | getStep => obtain rfl := execGetStep_next h; exact hne (st := .ok) (by decide) rfl
  | getSpeed => obtain rfl := execGetSpeed_next h; exact hne (st := .ok) (by decide) rfl
  | getDelay => obtain rfl := execGetDelay_next h; exact hne (st := .ok) (by decide) rfl
  | getPhase => obtain rfl := execGetPhase_next h; exact hne (st := .ok) (by decide) rfl

theorem isConfiguration_of_argumentRejected {i : Instr} {s : State} (h : ArgumentRejected i s) : IsConfiguration i := by
  cases i with
  | new | setAcceleration | setTargetSpeed => simp [instrOpcode]
  | setTargetStep | next | getStep | getSpeed | getDelay | getPhase => exact h.elim

/-- A failed guard decides the whole outcome (40_configuration.md R97). -/
theorem exec_of_argumentRejected {i : Instr} {s : State} (h : ArgumentRejected i s) :
    exec i s = .next { s with rsp := some 0x200000000#34 } := by
  obtain ⟨t, ht, -⟩ := exec_answers i s
  obtain ⟨-, rfl⟩ | ⟨hacc, -⟩ := exec_configuration_cases (isConfiguration_of_argumentRejected h) ht
  · rw [ht, rspWord_invalidArgument_zero]
  · exact absurd h hacc

/-- `INVALID_ARGUMENT` is answered exactly when the guard fails. -/
theorem rspStatus_eq_two_iff_argumentRejected {i : Instr} {s t : State} (h : exec i s = .next t) :
    t.rspStatus = some 2#2 ↔ ArgumentRejected i s := by
  by_cases hi : IsConfiguration i
  · obtain ⟨hrej, rfl⟩ | ⟨hacc, hrsp⟩ := exec_configuration_cases hi h
    · exact iff_of_true ((rspStatus_eq_two_iff rfl).mpr rfl) hrej
    · exact iff_of_false (fun h2 => absurd ((rspStatus_eq_two_iff hrsp).mp h2) (by decide)) hacc
  · exact iff_of_false (rspStatus_ne_two_of_not_configuration hi h)
      fun hrej => hi (isConfiguration_of_argumentRejected hrej)

theorem exec_rejects_iff (i : Instr) (s : State) :
    exec i s = .next { s with rsp := some 0x200000000#34 } ↔ ArgumentRejected i s :=
  ⟨fun h => (rspStatus_eq_two_iff_argumentRejected h).mp rfl, exec_of_argumentRejected⟩

theorem exec_accepts_iff {i : Instr} (hi : IsConfiguration i) (s : State) :
    (∃ t, exec i s = .next t ∧ t.rsp = some 0#34) ↔ ¬ ArgumentRejected i s := by
  obtain ⟨t, ht, -⟩ := exec_answers i s
  obtain ⟨hrej, rfl⟩ | ⟨hacc, hrsp⟩ := exec_configuration_cases hi ht
  · refine iff_of_false ?_ (not_not.mpr hrej)
    rintro ⟨u, hu, hrsp⟩
    obtain rfl := Host.Outcome.next.inj (ht.symm.trans hu)
    exact absurd (Option.some.inj hrsp) (by decide)
  · exact iff_of_true ⟨t, ht, hrsp⟩ hacc

/-! ### A rejection writes nothing (40_configuration.md R97) -/

/-- The guard reads the operand and `TPS` alone. -/
theorem argumentRejected_iff_of_tps_eq {s s' : State} (i : Instr) (h : s.tps = s'.tps) :
    ArgumentRejected i s ↔ ArgumentRejected i s' := by
  cases i with
  | setAcceleration a => simp only [ArgumentRejected, AccelAccepted, h]
  | setTargetSpeed v => simp only [ArgumentRejected, SpeedAccepted, h]
  | new | setTargetStep | next | getStep | getSpeed | getDelay | getPhase => exact Iff.rfl

/-- Settles O24: the rejected operation left `TPS`, so that its guard fails again. -/
theorem rejectionIsAtomic : Obligations.RejectionIsAtomic := by
  unfold Obligations.RejectionIsAtomic
  refine ⟨fun i s t h h2 => ?_, fun i s s' t t' htps h h' => ?_⟩
  · have hrej := (rspStatus_eq_two_iff_argumentRejected h).mp h2
    obtain rfl := Host.Outcome.next.inj ((exec_of_argumentRejected hrej).symm.trans h)
    have hagain : ArgumentRejected i { s with rsp := some 0x200000000#34 } :=
      (argumentRejected_iff_of_tps_eq i (by rfl)).mp hrej
    exact ⟨rfl, exec_of_argumentRejected hagain⟩
  · rw [rspStatus_eq_two_iff_argumentRejected h, rspStatus_eq_two_iff_argumentRejected h',
      argumentRejected_iff_of_tps_eq i htps]

/-! ### NEW (40_configuration.md R85, R86) -/

/-- Settles O14. -/
theorem newReinitialisesTheBlock : Obligations.NewReinitialisesTheBlock := by
  unfold Obligations.NewReinitialisesTheBlock
  refine ⟨decode_cmdWord .new, fun s F hF => ?_, fun s => exec_of_argumentRejected (i := .new 0#32) rfl⟩
  exact execNew_of_ne_zero (fun h0 => hF (BitVec.eq_of_toNat_eq h0)) s

/-! ### SET_ACCELERATION on each of its paths (40_configuration.md R87) -/

theorem toInt_pos_iff (v : Word) : 0 < v.toInt ↔ v.toNat ≠ 0 ∧ v.toNat < 2 ^ 31 := by
  rw [← sx32_eq_toInt, sx32_pos_iff]

theorem accelAccepted_iff (a : Word) (s : State) :
    AccelAccepted a s ↔
      0 < a.toInt ∧ 256 ≤ firstDelay s.tps.toNat a.toNat ∧ firstDelay s.tps.toNat a.toNat ≤ 4294967295 := by
  rw [toInt_pos_iff, AccelAccepted]
  omega

theorem exec_setAcceleration_of_atRest {a : Word} {s : State} (hacc : AccelAccepted a s) (hp : s.phase = .stopped) :
    exec (.setAcceleration a) s = .next
      { s with accel := a, delay := BitVec.ofNat 32 (firstDelay s.tps.toNat a.toNat), rsp := some 0#34 } := by
  obtain ⟨t, ht, -⟩ := exec_answers (.setAcceleration a) s
  obtain ⟨hrej, -⟩ | ⟨⟨-, -, -, hlt⟩, -, rfl⟩ | ⟨-, hm, -⟩ := execSetAcceleration_cases ht
  · exact absurd hacc hrej
  · rw [ht, toReg_eq_ofNat hlt, rspWord_ok_zero]
  · exact absurd hp hm

theorem exec_setAcceleration_of_moving {a : Word} {s : State} (hacc : AccelAccepted a s) (hp : s.phase ≠ .stopped) :
    exec (.setAcceleration a) s = .next
      { s with
        accel := a, rampIndex := BitVec.ofNat 32 (resyncIndex s.speed.toNat a.toNat), rest := 0#32,
        rsp := some 0#34 } := by
  have hn : resyncIndex s.speed.toNat a.toNat < 2 ^ 32 :=
    (resyncIndex_bounds s.speed.toNat a.toNat).2.trans_lt (by norm_num)
  obtain ⟨t, ht, -⟩ := exec_answers (.setAcceleration a) s
  obtain ⟨hrej, -⟩ | ⟨-, hr, -⟩ | ⟨-, -, rfl⟩ := execSetAcceleration_cases ht
  · exact absurd hacc hrej
  · exact absurd hr hp
  · rw [ht, toReg_eq_ofNat hn, rspWord_ok_zero]

/-- Settles O15: the rejection, and the two paths of an accepted operand. -/
theorem setAccelerationWholeRule : Obligations.SetAccelerationWholeRule := by
  unfold Obligations.SetAccelerationWholeRule
  refine ⟨decode_cmdWord .setAcceleration, fun s a hrej => ?_, fun s a hpos hge hle hp => ?_,
    fun s a hpos hge hle hp => ?_⟩
  · have hguard : ¬ AccelAccepted a s := by
      rw [accelAccepted_iff]
      omega
    exact exec_of_argumentRejected (i := .setAcceleration a) hguard
  · exact exec_setAcceleration_of_atRest ((accelAccepted_iff a s).mpr ⟨hpos, hge, hle⟩) hp
  · exact exec_setAcceleration_of_moving ((accelAccepted_iff a s).mpr ⟨hpos, hge, hle⟩) hp

/-! ### The accepted accelerations (40_configuration.md R88) -/

theorem firstDelay_zero_tps (A : Nat) : firstDelay 0 A = 0 := by
  rcases eq_or_ne A 0 with rfl | hA
  · exact firstDelay_zero 0
  · rw [firstDelay_eq hA, Nat.zero_mul]

/-- The divisions and the root of 10_state.md R35 turned round: the first delay reaches `d` exactly when the root
reaches `256000 * d / F`, rounded up. -/
theorem le_firstDelay_iff {F A : Nat} (hF : F ≠ 0) (hA : A ≠ 0) (d : Nat) :
    d ≤ firstDelay F A ↔ cdiv (256000 * d) F * cdiv (256000 * d) F * A ≤ 913952 * 2 ^ 40 := by
  have hroot (r : Nat) : 256000 * d ≤ F * r ↔ cdiv (256000 * d) F ≤ r := by
    rw [cdiv_eq_ceilDiv, ceilDiv_le_iff_le_mul (Nat.pos_of_ne_zero hF)]
  calc d ≤ firstDelay F A
    _ ↔ 256000 * d ≤ F * Nat.sqrt (913952 * 2 ^ 40 / A) := by rw [firstDelay_eq hA]; omega
    _ ↔ cdiv (256000 * d) F * cdiv (256000 * d) F ≤ 913952 * 2 ^ 40 / A := by rw [hroot, Nat.le_sqrt]
    _ ↔ _ := Nat.le_div_iff_mul_le (Nat.pos_of_ne_zero hA)

/-- The guard at a timer rate, without the root. `lo` and `hi` are the roots at which the first delay reaches
`DELAY_MIN` and passes `DELAY_MAX`. -/
theorem accelAccepted_iff_of_roots {a : Word} {s : State} {lo hi : Nat} (hF : s.tps.toNat ≠ 0)
    (hlo : cdiv (256000 * 256) s.tps.toNat = lo) (hhi : cdiv (256000 * 2 ^ 32) s.tps.toNat = hi) :
    AccelAccepted a s ↔
      a.toNat ≠ 0 ∧ a.toNat < 2 ^ 31 ∧ lo * lo * a.toNat ≤ 913952 * 2 ^ 40 ∧ 913952 * 2 ^ 40 < hi * hi * a.toNat := by
  refine and_congr_right fun hA => and_congr_right fun _ => and_congr ?_ ?_
  · rw [le_firstDelay_iff hF hA, hlo]
  · rw [← not_le, le_firstDelay_iff hF hA, hhi, not_le]

/-- Settles O16: an operand is accepted exactly when its guard passes, and at a rate the guard is two linear bounds. -/
theorem accelerationGuardIsExact : Obligations.AccelerationGuardIsExact := by
  unfold Obligations.AccelerationGuardIsExact
  have hacc (s : State) (a : Word) :
      (∃ t, exec (.setAcceleration a) s = .next t ∧ t.rsp = some 0#34) ↔ AccelAccepted a s :=
    (exec_accepts_iff (i := .setAcceleration a) (by simp [instrOpcode]) s).trans not_not
  refine ⟨fun s a => ?_, fun s a hF => ?_, fun s a hF => ?_, fun s a hF => ?_, fun s a hF => ?_⟩
  · rw [exec_rejects_iff, ArgumentRejected, AccelAccepted]
    omega
  · have hguard : ¬ AccelAccepted a s := by
      rw [AccelAccepted, hF, firstDelay_zero_tps]
      omega
    exact exec_of_argumentRejected (i := .setAcceleration a) hguard
  · rw [hacc, accelAccepted_iff_of_roots (lo := 65536) (hi := 1099511627776) (by omega)
      (by norm_num [hF, cdiv]) (by norm_num [hF, cdiv])]
    omega
  · rw [hacc, accelAccepted_iff_of_roots (lo := 66) (hi := 1099511628) (by omega)
      (by norm_num [hF, cdiv]) (by norm_num [hF, cdiv])]
    omega
  · rw [hacc, accelAccepted_iff_of_roots (lo := 1) (hi := 15270995) (by omega)
      (by norm_num [hF, cdiv]) (by norm_num [hF, cdiv])]
    omega

/-! ### SET_ACCELERATION under the invariant (40_configuration.md R89 to R91) -/

/-- Settles O17: a block at rest has `RAMP_INDEX` and `REST` 0, and this path writes neither. -/
theorem accelerationAtRestSetsSentinel : Obligations.AccelerationAtRestSetsSentinel := by
  unfold Obligations.AccelerationAtRestSetsSentinel
  intro s a hi hp hpos hge hle
  obtain ⟨-, -, hn, hrest, -⟩ := hasComeToRest_of_inv hi hp
  have hdelay : (BitVec.ofNat 32 (firstDelay s.tps.toNat a.toNat)).toNat = firstDelay s.tps.toNat a.toNat := by
    rw [BitVec.toNat_ofNat, Nat.mod_eq_of_lt (by omega)]
  exact ⟨_, exec_setAcceleration_of_atRest ((accelAccepted_iff a s).mpr ⟨hpos, hge, hle⟩) hp, rfl, hdelay, hn, hrest,
    hp, rfl, rfl, rfl⟩

/-- Settles O18: the ordinal fits its register, and the invariant bounds the speed. -/
theorem accelerationWhileMovingResyncs : Obligations.AccelerationWhileMovingResyncs := by
  unfold Obligations.AccelerationWhileMovingResyncs
  refine ⟨fun s a hi hp hpos hge hle => ?_, by norm_num, by norm_num⟩
  obtain ⟨-, -, -, -, -, ⟨-, hspeed⟩, -⟩ := hi
  have hacc := (accelAccepted_iff a s).mpr ⟨hpos, hge, hle⟩
  have hn := (resyncIndex_bounds s.speed.toNat a.toNat).2
  have hindex : (BitVec.ofNat 32 (resyncIndex s.speed.toNat a.toNat)).toNat =
      min 1073741823 (s.speed.toNat ^ 2 / (512 * a.toNat) + 1) := by
    rw [BitVec.toNat_ofNat, Nat.mod_eq_of_lt (by omega), resyncIndex, rampIndexMax, sq]
  have hsquare : s.speed.toNat ^ 2 < 2 ^ 62 :=
    calc s.speed.toNat ^ 2 < (2 ^ 31) ^ 2 := Nat.pow_lt_pow_left hspeed (by norm_num)
      _ = 2 ^ 62 := by norm_num
  exact ⟨_, exec_setAcceleration_of_moving hacc hp, hindex, rfl, rfl, hsquare, by omega⟩

/-- Settles O19: the acceleration in force passed its guard, and its first delay is what `DELAY` holds at rest. -/
theorem sameAccelerationAtRestChangesNothing : Obligations.SameAccelerationAtRestChangesNothing := by
  unfold Obligations.SameAccelerationAtRestChangesNothing
  intro s hi hp hne
  obtain ⟨-, -, -, -, hd⟩ := hasComeToRest_of_inv hi hp
  obtain ⟨-, -, ha, -⟩ := hi
  have hdelay : BitVec.ofNat 32 (firstDelay s.tps.toNat s.accel.toNat) = s.delay := by
    rw [← hd, BitVec.ofNat_toNat, BitVec.setWidth_eq]
  rw [exec_setAcceleration_of_atRest ⟨hne, ha.resolve_left hne⟩ hp, hdelay]

/-! ### SET_TARGET_STEP (40_configuration.md R92) -/

/-- Settles O20. -/
theorem setTargetStepWritesTargetStepOnly : Obligations.SetTargetStepWritesTargetStepOnly :=
  ⟨decode_cmdWord .setTargetStep, fun _ _ => rfl⟩

/-! ### SET_TARGET_SPEED (40_configuration.md R93, R94) -/

theorem speedAccepted_iff (v : Word) (s : State) :
    SpeedAccepted v s ↔
      0 < v.toInt ∧ 256 ≤ cruiseDelay s.tps.toNat v.toNat ∧ cruiseDelay s.tps.toNat v.toNat ≤ 4294967295 := by
  rw [toInt_pos_iff, SpeedAccepted]
  omega

theorem exec_setTargetSpeed_of_accepted {v : Word} {s : State} (hacc : SpeedAccepted v s) :
    exec (.setTargetSpeed v) s = .next { s with targetSpeed := v, rsp := some 0#34 } := by
  obtain ⟨t, ht, -⟩ := exec_answers (.setTargetSpeed v) s
  obtain ⟨hrej, -⟩ | ⟨-, rfl⟩ := execSetTargetSpeed_cases ht
  · exact absurd hacc hrej
  · rw [ht, rspWord_ok_zero]

/-- Settles O21. -/
theorem setTargetSpeedWritesTargetSpeedOnly : Obligations.SetTargetSpeedWritesTargetSpeedOnly := by
  unfold Obligations.SetTargetSpeedWritesTargetSpeedOnly
  refine ⟨decode_cmdWord .setTargetSpeed, fun s v hrej => ?_, fun s v hpos hge hle => ?_⟩
  · have hguard : ¬ SpeedAccepted v s := by
      rw [speedAccepted_iff]
      omega
    exact exec_of_argumentRejected (i := .setTargetSpeed v) hguard
  · exact exec_setTargetSpeed_of_accepted ((speedAccepted_iff v s).mpr ⟨hpos, hge, hle⟩)

/-- The guard without the division: the cruise delay is above 255 and at most `DELAY_MAX`. -/
theorem speedAccepted_iff_linear (v : Word) (s : State) :
    SpeedAccepted v s ↔
      v.toNat ≠ 0 ∧ v.toNat < 2 ^ 31 ∧ v.toNat * 255 < s.tps.toNat * 65536 ∧
        s.tps.toNat * 65536 ≤ v.toNat * 4294967295 := by
  refine and_congr_right fun hV => and_congr_right fun _ => and_congr ?_ ?_
  · rw [← not_le, ← cruiseDelay_le_iff hV, not_le]
    exact Iff.rfl
  · rw [← cruiseDelay_le_iff hV]
    exact Nat.lt_succ_iff

/-- Settles O22: an operand is accepted exactly when its guard passes, and at a rate the guard is two linear bounds. -/
theorem speedGuardIsExact : Obligations.SpeedGuardIsExact := by
  unfold Obligations.SpeedGuardIsExact
  have hacc (s : State) (v : Word) :
      (∃ t, exec (.setTargetSpeed v) s = .next t ∧ t.rsp = some 0#34) ↔ SpeedAccepted v s :=
    (exec_accepts_iff (i := .setTargetSpeed v) (by simp [instrOpcode]) s).trans not_not
  refine ⟨fun s v => ?_, fun s v hF => ?_, fun s v hF => ?_, fun s v hF => ?_, fun s v hF => ?_⟩
  · rw [exec_rejects_iff, ArgumentRejected, SpeedAccepted]
    omega
  · have hguard : ¬ SpeedAccepted v s := by
      rw [speedAccepted_iff_linear, hF]
      omega
    exact exec_of_argumentRejected (i := .setTargetSpeed v) hguard
  · rw [hacc, speedAccepted_iff_linear, hF]
    omega
  · rw [hacc, speedAccepted_iff_linear, hF]
    omega
  · rw [hacc, speedAccepted_iff_linear, hF]
    omega

/-! ### The setters take no step, and their order (40_configuration.md R98) -/

theorem setter_keeps_motion {i : Instr} {s t : State}
    (hi : instrOpcode i ∈ [Opcode.setAcceleration, .setTargetStep, .setTargetSpeed]) (h : exec i s = .next t) :
    t.step = s.step ∧ t.speed = s.speed ∧ t.phase = s.phase := by
  obtain ⟨-, -, -, -, hstep, hspeed, -, -, -, hphase, -⟩ := registersAreWrittenAsTheTableSays i s t h
  have hi' : instrOpcode i ∉ [Opcode.new, .next] := by
    revert hi
    generalize instrOpcode i = op
    cases op <;> decide
  exact ⟨not_not.mp (hi' ∘ hstep), not_not.mp (hi' ∘ hspeed), not_not.mp (hi' ∘ hphase)⟩

theorem configuration_answers_zero {i : Instr} {s t : State} (hi : IsConfiguration i) (h : exec i s = .next t) :
    t.rspData = some 0#32 := by
  obtain ⟨-, rfl⟩ | ⟨-, hrsp⟩ := exec_configuration_cases hi h
  · exact rspData_of_rsp rfl
  · exact rspData_of_rsp hrsp

/-- SET_ACCELERATION reads neither `TARGET_SPEED` nor the response before its own. -/
theorem exec_setAcceleration_of_targetSpeed {a : Word} {s t : State} (h : exec (.setAcceleration a) s = .next t)
    (v : Word) (r : Option RspWord) :
    exec (.setAcceleration a) { s with targetSpeed := v, rsp := r } = .next { t with targetSpeed := v } := by
  obtain ⟨hrej, rfl⟩ | ⟨hacc, hp, -⟩ | ⟨hacc, hp, -⟩ := execSetAcceleration_cases h
  · exact exec_of_argumentRejected (i := .setAcceleration a) hrej
  · obtain rfl := Host.Outcome.next.inj ((exec_setAcceleration_of_atRest hacc hp).symm.trans h)
    exact exec_setAcceleration_of_atRest hacc hp
  · obtain rfl := Host.Outcome.next.inj ((exec_setAcceleration_of_moving hacc hp).symm.trans h)
    exact exec_setAcceleration_of_moving hacc hp

/-- The guard of SET_TARGET_SPEED reads `TPS`, which SET_ACCELERATION leaves, so the second setter takes the path it
takes when it comes first. -/
theorem setters_commute {s t u t' u' : State} {a v : Word} (ht : exec (.setAcceleration a) s = .next t)
    (hu : exec (.setTargetSpeed v) t = .next u) (ht' : exec (.setTargetSpeed v) s = .next t')
    (hu' : exec (.setAcceleration a) t' = .next u') :
    u.registers = u'.registers ∧ t.rsp = u'.rsp ∧ u.rsp = t'.rsp := by
  obtain ⟨htps, -, -, hcap, -⟩ := registersAreWrittenAsTheTableSays _ s t ht
  replace htps : t.tps = s.tps := not_not.mp (mt htps (by simp [instrOpcode]))
  replace hcap : t.targetSpeed = s.targetSpeed := not_not.mp (mt hcap (by simp [instrOpcode]))
  have hguard := argumentRejected_iff_of_tps_eq (.setTargetSpeed v) htps
  obtain ⟨hrej, rfl⟩ | ⟨hacc, rfl⟩ := execSetTargetSpeed_cases ht'
  · obtain rfl := Host.Outcome.next.inj ((exec_of_argumentRejected (hguard.mpr hrej)).symm.trans hu)
    obtain rfl := Host.Outcome.next.inj
      ((exec_setAcceleration_of_targetSpeed ht s.targetSpeed (some (rspWord .invalidArgument 0#32))).symm.trans hu')
    rw [← hcap]
    exact ⟨rfl, rfl, rfl⟩
  · have hacc' : SpeedAccepted v t := not_not.mp (mt hguard.mp (not_not.mpr hacc))
    obtain rfl := Host.Outcome.next.inj ((exec_setTargetSpeed_of_accepted hacc').symm.trans hu)
    obtain rfl := Host.Outcome.next.inj
      ((exec_setAcceleration_of_targetSpeed ht v (some (rspWord .ok 0#32))).symm.trans hu')
    exact ⟨rfl, rfl, rfl⟩

/-- Settles O26. -/
theorem settersCommuteAndTakeNoStep : Obligations.SettersCommuteAndTakeNoStep := by
  unfold Obligations.SettersCommuteAndTakeNoStep
  refine ⟨fun i s t hi h => ?_, fun s t u t' u' a v => setters_commute⟩
  obtain ⟨hstep, hspeed, hphase⟩ := setter_keeps_motion hi h
  exact ⟨hstep, hspeed, hphase, configuration_answers_zero (List.mem_cons_of_mem _ hi) h⟩

end Sys2Proof.Machine
end

section
/-! SUPPORT. The statements of 41_stepping.md on one NEXT: the calls that take no step (R106, R107), the step of each
action (R110 to R122), who may start a ramp (R109), and the direction in which a phase moves the delay (R133 (a)). -/

namespace Sys2Proof.Machine

/-! ### NEXT without a step (41_stepping.md R106, R107) -/

theorem unconfigured_of_eq_zero {s : State} (h : s.accel = 0#32 ∨ s.targetSpeed = 0#32) : s.Unconfigured :=
  h.imp (congrArg BitVec.toNat) (congrArg BitVec.toNat)

theorem atRest_of_unconfigured {s : State} (hi : s.Inv) (hu : s.Unconfigured) : s.phase = .stopped :=
  not_not.mp fun hm => (moving_configured hi hm).2 hu

theorem delay_of_atRest {s : State} (hi : s.Inv) (hp : s.phase = .stopped) :
    s.delay.toNat = firstDelay s.tps.toNat s.accel.toNat := by
  obtain ⟨-, -, -, -, hdelay⟩ := hasComeToRest_of_inv hi hp
  exact hdelay

/-- Settles O30. -/
theorem nextUnconfiguredAnswersDone : Obligations.NextUnconfiguredAnswersDone := by
  unfold Obligations.NextUnconfiguredAnswersDone
  refine ⟨fun s hu => execNext_of_hasNoStepToTake (.inl (unconfigured_of_eq_zero hu)), fun s hi hu => ?_⟩
  have hp := atRest_of_unconfigured hi (unconfigured_of_eq_zero hu)
  exact ⟨hp, delay_of_atRest hi hp⟩

theorem hasNoStepToTake_of_atRest {s : State} (hi : s.Inv) (hp : s.phase = .stopped)
    (hT : s.targetStep.toNat ≤ s.step.toNat) : s.HasNoStepToTake := by
  obtain ⟨hpn, -⟩ := hi
  have hn := hpn.mp hp
  exact .inr ⟨by rw [s.remaining_eq]; omega, by omega, hp⟩

/-- A moving block at the lowest ordinal with no step to go comes to rest without a step (41_stepping.md R107 (b)). -/
theorem execNext_of_terminal_moving {s : State} (hi : s.Inv) (hm : s.phase ≠ .stopped)
    (hT : s.targetStep.toNat ≤ s.step.toNat) (hn : s.rampIndex.toNat ≤ 1) :
    execNext s = s.comeToRest.respond .done (toReg s.seedDelay) := by
  unfold execNext
  rw [if_neg (moving_configured hi hm).2, if_pos ⟨by rw [s.remaining_eq]; omega, hn⟩, if_pos hm]

/-- Settles O31. -/
theorem nextInTerminalStateAnswersDone : Obligations.NextInTerminalStateAnswersDone := by
  unfold Obligations.NextInTerminalStateAnswersDone
  refine ⟨fun s hi _ hT hp => ⟨?_, delay_of_atRest hi hp⟩, fun s hi hT hm hn => ?_⟩
  · exact execNext_of_hasNoStepToTake (hasNoStepToTake_of_atRest hi hp hT)
  · obtain ⟨-, -, ha, -⟩ := id hi
    have hfd : toReg s.seedDelay = BitVec.ofNat 32 (firstDelay s.tps.toNat s.accel.toNat) :=
      toReg_eq_ofNat (seedDelay_lt ha)
    rw [← hfd]
    exact execNext_of_terminal_moving hi hm hT hn.le

/-! ### When NEXT takes a step -/

theorem takesStep_of_configured {s : State} (hu : ¬ s.Unconfigured)
    (h : 2 ≤ s.rampIndex.toNat ∨ s.step.toNat < s.targetStep.toNat) : s.TakesStep := by
  refine ⟨hu, fun ⟨hrem, hn⟩ => ?_⟩
  rw [s.remaining_eq] at hrem
  omega

theorem takesStep_of_moving {s : State} (hi : s.Inv) (hm : s.phase ≠ .stopped)
    (h : 2 ≤ s.rampIndex.toNat ∨ s.step.toNat < s.targetStep.toNat) : s.TakesStep :=
  takesStep_of_configured (moving_configured hi hm).2 h

theorem moving_of_rampIndex {s : State} (hi : s.Inv) (hn : s.rampIndex.toNat ≠ 0) : s.phase ≠ .stopped := by
  obtain ⟨hpn, -⟩ := hi
  exact mt hpn.mp hn

/-- The outcome of NEXT from the step it computes. -/
theorem exec_next_of_rampPoint {s : State} {p : RampPoint} (hi : s.Inv) (ht : s.TakesStep) (hp : s.rampPoint = p) :
    ∃ t, exec .next s = .next t ∧ s.TookStep t p.delay p.index p.rest p.phase :=
  hp ▸ execNext_tookStep hi ht

/-! ### The step that each action computes, from the registers (41_stepping.md R108) -/

/-- The unclamped acceleration step; the remainder is carried only from Accelerating (41_stepping.md R119, R125 (a)). -/
abbrev State.accelPoint (s : State) : RampPoint :=
  accelStep s.delay.toNat s.rampIndex.toNat (if s.phase = .accelerating then s.rest.toNat else 0)

/-- The unfloored deceleration step; the remainder is carried only from Decelerating (41_stepping.md R121, R125 (a)). -/
abbrev State.decelPoint (s : State) : RampPoint :=
  decelStep s.delay.toNat s.rampIndex.toNat (if s.phase = .decelerating then s.rest.toNat else 0)

theorem rampPoint_of_atRest {s : State} (hn : s.rampIndex.toNat = 0) :
    s.rampPoint = seedStep s.seedDelay s.capDelay := by
  obtain ⟨-, hp⟩ | ⟨h0, -⟩ | ⟨h0, -⟩ | ⟨h0, -⟩ | ⟨h0, -⟩ := rampPoint_cases s
  case inl => exact hp
  all_goals exact absurd hn h0

theorem rampPoint_of_braking {s : State} (h : s.Braking) : s.rampPoint = s.decelPoint := by
  obtain ⟨hn, hT⟩ := h
  have hrem := s.remaining_eq
  obtain ⟨h0, -⟩ | ⟨-, -, hp⟩ | ⟨-, hr, -⟩ | ⟨-, hr, -⟩ | ⟨-, hr, -⟩ := rampPoint_cases s
  case inr.inl => exact hp
  all_goals omega

theorem rampPoint_of_lt_cap {s : State} (hn : 1 ≤ s.rampIndex.toNat)
    (hT : s.step.toNat + s.rampIndex.toNat ≤ s.targetStep.toNat) (hc : s.delay.toNat < s.capDelay) :
    s.rampPoint = decelFloor s.delay.toNat s.rampIndex.toNat
      (if s.phase = .decelerating then s.rest.toNat else 0) s.capDelay := by
  have hrem := s.remaining_eq
  obtain ⟨h0, -⟩ | ⟨-, hr, -⟩ | ⟨-, -, -, hp⟩ | ⟨-, -, hlt, -⟩ | ⟨-, -, hge, -⟩ := rampPoint_cases s
  case inr.inr.inl => exact hp
  all_goals omega

theorem rampPoint_of_cap_lt {s : State} (hn : 1 ≤ s.rampIndex.toNat)
    (hT : s.step.toNat + (s.rampIndex.toNat + 1) ≤ s.targetStep.toNat) (hc : s.capDelay < s.delay.toNat) :
    s.rampPoint = clampAccel s.capDelay s.accelPoint := by
  have hrem := s.remaining_eq
  obtain ⟨h0, -⟩ | ⟨-, hr, -⟩ | ⟨-, -, hlt, -⟩ | ⟨-, -, -, hp⟩ | ⟨-, -, hor, -⟩ := rampPoint_cases s
  case inr.inr.inr.inl => exact hp
  all_goals omega

/-- At the cap (41_stepping.md R117), and one call before the point of no return (R115). -/
theorem rampPoint_of_hold {s : State} (hn : 1 ≤ s.rampIndex.toNat)
    (h : s.delay.toNat = s.capDelay ∧ s.step.toNat + s.rampIndex.toNat ≤ s.targetStep.toNat ∨
      s.capDelay < s.delay.toNat ∧ s.step.toNat + s.rampIndex.toNat = s.targetStep.toNat) :
    s.rampPoint = holdStep s.delay.toNat s.rampIndex.toNat := by
  have hrem := s.remaining_eq
  obtain ⟨h0, -⟩ | ⟨-, hr, -⟩ | ⟨-, -, hlt, -⟩ | ⟨-, hr, hlt, -⟩ | ⟨-, -, -, hp⟩ := rampPoint_cases s
  case inr.inr.inr.inr => exact hp
  all_goals omega

/-! ### One NEXT of each action -/

/-- Settles O32. -/
theorem nextSeedsFromRest : Obligations.NextSeedsFromRest := by
  unfold Obligations.NextSeedsFromRest
  intro s hi hc hp hT
  obtain ⟨-, -, hn, -⟩ := hasComeToRest_of_inv hi hp
  exact exec_next_of_rampPoint hi (takesStep_of_configured (not_or.mpr hc) (.inr hT)) (rampPoint_of_atRest hn)

/-- The remainder that an acceleration step starts from is below its denominator (41_stepping.md R125). -/
theorem carried_accelerating_lt {s : State} (hi : s.Inv) :
    (if s.phase = .accelerating then s.rest.toNat else 0) < 4 * s.rampIndex.toNat + 1 := by
  obtain ⟨-, -, -, -, -, -, -, hrest, -⟩ := hi
  split
  · exact hrest ‹_›
  · omega

theorem delay_ge_of_moving {s : State} (hi : s.Inv) (hm : s.phase ≠ .stopped) : 256 ≤ s.delay.toNat := by
  obtain ⟨-, -, -, -, hmotion, -⟩ := hi
  obtain ⟨-, -, hd, -⟩ := hmotion hm
  exact hd

/-- Settles O33. -/
theorem nextAccelerates : Obligations.NextAccelerates := by
  unfold Obligations.NextAccelerates
  rintro s c n r hi hm rfl rfl rfl hT hc hslow
  obtain ⟨hn, -⟩ := moving_configured hi hm
  refine ⟨accel_delta_lt (delay_ge_of_moving hi hm) hn (carried_accelerating_lt hi), ?_⟩
  have hp := rampPoint_of_cap_lt hn hT hc
  obtain ⟨hle, -⟩ | ⟨-, hclamp⟩ := clampAccel_cases s.capDelay s.accelPoint
  · exact absurd hle (Nat.not_le.mpr hslow)
  · exact exec_next_of_rampPoint hi (takesStep_of_moving hi hm (.inr (by omega))) (hp.trans hclamp)

/-- Settles O34. -/
theorem nextClampsAtTheCap : Obligations.NextClampsAtTheCap := by
  unfold Obligations.NextClampsAtTheCap
  rintro s c n r hi hm rfl rfl rfl hT hc hfast
  obtain ⟨hn, -⟩ := moving_configured hi hm
  have hp := rampPoint_of_cap_lt hn hT hc
  obtain ⟨-, hclamp⟩ | ⟨hlt, -⟩ := clampAccel_cases s.capDelay s.accelPoint
  · exact exec_next_of_rampPoint hi (takesStep_of_moving hi hm (.inr (by omega))) (hp.trans hclamp)
  · exact absurd hfast (Nat.not_le.mpr hlt)

/-- Settles O35. -/
theorem nextBrakesInsideBrakingDistance : Obligations.NextBrakesInsideBrakingDistance := by
  unfold Obligations.NextBrakesInsideBrakingDistance
  rintro s c n r hi rfl rfl rfl hn hT
  have hm := moving_of_rampIndex hi (by omega)
  exact exec_next_of_rampPoint hi (takesStep_of_moving hi hm (.inl hn)) (rampPoint_of_braking ⟨hn, hT⟩)

theorem capDelay_le_delayMax {s : State} (hi : s.Inv) (hm : s.phase ≠ .stopped) : s.capDelay ≤ 4294967295 := by
  obtain ⟨-, -, -, hv, -⟩ := id hi
  obtain ⟨-, hV⟩ := not_or.mp (moving_configured hi hm).2
  obtain ⟨-, -, hlt⟩ := hv.resolve_left hV
  exact Nat.le_of_lt_succ hlt

/-- Below the cap the saturation of a deceleration step is out of reach, so that the floor compares the exact sum
(41_stepping.md R121, R122). -/
theorem decelStep_delay_lt_iff {c n r cd : Nat} (hcd : cd ≤ 4294967295) :
    (decelStep c n r).delay < cd ↔ c + (2 * c + r) / (4 * (n - 1) - 1) < cd := by
  simp only [decelStep, delayMax, recurrenceNum, decelDen]
  omega

theorem decelStep_of_lt {c n r cd : Nat} (hcd : cd ≤ 4294967295) (h : c + (2 * c + r) / (4 * (n - 1) - 1) < cd) :
    decelStep c n r =
      ⟨c + (2 * c + r) / (4 * (n - 1) - 1), n - 1, (2 * c + r) % (4 * (n - 1) - 1), .decelerating⟩ := by
  have hmin : min delayMax (c + (2 * c + r) / (4 * (n - 1) - 1)) = c + (2 * c + r) / (4 * (n - 1) - 1) :=
    min_eq_right (h.le.trans hcd)
  simp only [decelStep, recurrenceNum, decelDen, hmin]

/-- Settles O36: the three arms of the floor. -/
theorem nextDeceleratesToTheCap : Obligations.NextDeceleratesToTheCap := by
  unfold Obligations.NextDeceleratesToTheCap
  rintro s c n r cd hi hm rfl rfl rfl rfl hT hc
  obtain ⟨hn, -⟩ := moving_configured hi hm
  have ht := takesStep_of_moving hi hm (.inr (by omega))
  have hp := rampPoint_of_lt_cap hn hT hc
  have hcd := capDelay_le_delayMax hi hm
  obtain ⟨hn2, hlt, hfloor⟩ | ⟨hn2, hge, hfloor⟩ | ⟨hn1, hfloor⟩ := decelFloor_cases s.delay.toNat s.rampIndex.toNat
    (if s.phase = .decelerating then s.rest.toNat else 0) s.capDelay
  · rw [decelStep_delay_lt_iff hcd] at hlt
    exact ⟨fun _ _ => exec_next_of_rampPoint hi ht (hp.trans (hfloor.trans (decelStep_of_lt hcd hlt))),
      fun _ hge => absurd hlt (Nat.not_lt.mpr hge), fun h1 => by omega⟩
  · rw [← not_lt, decelStep_delay_lt_iff hcd] at hge
    exact ⟨fun _ hlt => absurd hlt hge, fun _ _ => exec_next_of_rampPoint hi ht (hp.trans hfloor),
      fun h1 => by omega⟩
  · exact ⟨fun hn2 => by omega, fun hn2 => by omega, fun _ => exec_next_of_rampPoint hi ht (hp.trans hfloor)⟩

/-- Settles O37. -/
theorem nextHolds : Obligations.NextHolds := by
  unfold Obligations.NextHolds
  rintro s c n hi hm rfl rfl h
  obtain ⟨hn, -⟩ := moving_configured hi hm
  exact exec_next_of_rampPoint hi (takesStep_of_moving hi hm (.inr (by omega))) (rampPoint_of_hold hn h)

/-! ### Who starts a ramp (41_stepping.md R109) -/

/-- NEXT at rest leaves the block moving only by taking a step. -/
theorem takesStep_of_starts {s t : State} (h : execNext s = .next t) (hp : s.phase = .stopped)
    (hm : t.phase ≠ .stopped) : s.TakesStep ∧ t.rspStatus = some 0#2 := by
  obtain ⟨-, rfl⟩ | ⟨-, -, -, -, rfl⟩ | ⟨-, -, -, -, rfl⟩ | ⟨ht, rfl⟩ := execNext_cases h
  · exact absurd hp hm
  · exact absurd hp hm
  · exact absurd rfl hm
  · exact ⟨ht, rspStatus_of_rsp (st := .ok) rfl⟩

theorem step_lt_target_of_atRest {s : State} (hi : s.Inv) (hp : s.phase = .stopped) (ht : s.TakesStep) :
    s.step.toNat < s.targetStep.toNat :=
  Nat.lt_of_not_le fun hT => (hasNoStepToTake_of_atRest hi hp hT).elim ht.1 fun ⟨hrem, hn, _⟩ => ht.2 ⟨hrem, hn⟩

/-- NEW leaves `PHASE` Stopped, or as it was. -/
theorem atRest_of_execNew {F : Word} {s t : State} (h : execNew F s = .next t) (hp : s.phase = .stopped) :
    t.phase = .stopped := by
  obtain ⟨-, rfl⟩ | ⟨-, rfl⟩ := execNew_cases h
  · exact hp
  · rfl

/-- Settles O38: only NEW and NEXT write `PHASE`, and NEW leaves the block at rest. -/
theorem onlyNextStartsARamp : Obligations.OnlyNextStartsARamp := by
  unfold Obligations.OnlyNextStartsARamp
  intro i s t h hp hm
  obtain ⟨-, -, -, -, -, -, -, -, -, hphase, -⟩ := registersAreWrittenAsTheTableSays i s t h
  have hi : instrOpcode i ∈ [Opcode.new, .next] := hphase (hp ▸ hm)
  cases i with
  | new F => exact absurd (atRest_of_execNew h hp) hm
  | next =>
    obtain ⟨ht, hok⟩ := takesStep_of_starts h hp hm
    exact ⟨rfl, not_or.mp ht.1, hok, fun hinv => step_lt_target_of_atRest hinv hp ht⟩
  | setAcceleration | setTargetStep | setTargetSpeed | getStep | getSpeed | getDelay | getPhase =>
    exact absurd hi (by simp [instrOpcode])

/-! ### The delay within a phase (41_stepping.md R133 (a)) -/

/-- A step of a moving block cruises, or is one unclamped step of the recurrence. -/
theorem rampPoint_cases_of_moving {s : State} (hn : s.rampIndex.toNat ≠ 0) :
    s.rampPoint.phase = .cruising ∨ s.rampPoint = s.decelPoint ∨ s.rampPoint = s.accelPoint := by
  obtain ⟨h0, -⟩ | ⟨-, -, hp⟩ | ⟨-, -, -, hp⟩ | ⟨-, -, -, hp⟩ | ⟨-, -, -, hp⟩ := rampPoint_cases s
  · exact absurd h0 hn
  · exact .inr (.inl hp)
  · obtain ⟨-, -, hfloor⟩ | ⟨-, -, hfloor⟩ | ⟨-, hfloor⟩ := decelFloor_cases s.delay.toNat s.rampIndex.toNat
      (if s.phase = .decelerating then s.rest.toNat else 0) s.capDelay
    · exact .inr (.inl (hp.trans hfloor))
    · exact .inl (congrArg RampPoint.phase (hp.trans hfloor))
    · exact .inl (congrArg RampPoint.phase (hp.trans hfloor))
  · obtain ⟨-, hclamp⟩ | ⟨-, hclamp⟩ := clampAccel_cases s.capDelay s.accelPoint
    · exact .inl (congrArg RampPoint.phase (hp.trans hclamp))
    · exact .inr (.inr (hp.trans hclamp))
  · exact .inl (congrArg RampPoint.phase hp)

/-- The stop rule (41_stepping.md R131) fires. -/
theorem hasComeToRest_of_tookStep {s t : State} {d n r : Nat} {p : Phase} (h : s.TookStep t d n r p)
    (hstop : t.step.toNat ≥ s.targetStep.toNat ∧ n ≤ 1) : t.HasComeToRest := by
  obtain ⟨-, -, -, -, -, hleft⟩ := h
  rwa [if_pos hstop] at hleft

/-- The stop rule does not fire: the block holds what the step computed. -/
theorem registers_of_tookStep {s t : State} {d n r : Nat} {p : Phase} (h : s.TookStep t d n r p)
    (hgo : ¬ (t.step.toNat ≥ s.targetStep.toNat ∧ n ≤ 1)) :
    t.phase = p ∧ t.delay.toNat = d ∧ t.rampIndex.toNat = n := by
  obtain ⟨-, -, -, -, -, hleft⟩ := h
  rw [if_neg hgo] at hleft
  obtain ⟨hphase, hdelay, hindex, -⟩ := hleft
  exact ⟨hphase, hdelay, hindex⟩

theorem registers_of_tookStep_of_moving {s t : State} {d n r : Nat} {p : Phase} (h : s.TookStep t d n r p)
    (hm : t.phase ≠ .stopped) : t.phase = p ∧ t.delay.toNat = d ∧ t.rampIndex.toNat = n :=
  registers_of_tookStep h fun hstop => hm (hasComeToRest_of_tookStep h hstop).1

/-- What NEXT of a moving block leaves, if the block is still moving. -/
theorem execNext_of_still_moving {s t : State} (hi : s.Inv) (hm : s.phase ≠ .stopped) (h : execNext s = .next t)
    (hm' : t.phase ≠ .stopped) : t.phase = s.rampPoint.phase ∧ t.delay.toNat = s.rampPoint.delay := by
  obtain ⟨hp, -⟩ | ⟨-, hrest, -⟩ | ⟨-, htook⟩ := execNext_cases_of_inv hi h
  · exact absurd hp hm
  · exact absurd hrest hm'
  · obtain ⟨hphase, hdelay, -⟩ := registers_of_tookStep_of_moving htook hm'
    exact ⟨hphase, hdelay⟩

theorem delay_le_decelStep {c n r : Nat} (hc : c < 2 ^ 32) : c ≤ (decelStep c n r).delay :=
  le_min (Nat.le_of_lt_succ hc) (Nat.le_add_right _ _)

/-- The quotient of an acceleration step is at least 1 where `2c >= 4n + 1`. -/
theorem accelStep_delay_lt {c n r : Nat} (h : 4 * n + 1 ≤ 2 * c) : (accelStep c n r).delay < c := by
  have hquot : 1 ≤ (2 * c + r) / (4 * n + 1) := Nat.div_pos (by omega) (by omega)
  simp only [accelStep, recurrenceNum, accelDen]
  omega

/-- Settles O39. -/
theorem delayIsMonotoneInEachPhase : Obligations.DelayIsMonotoneInEachPhase := by
  unfold Obligations.DelayIsMonotoneInEachPhase
  intro s t hi hm h
  obtain ⟨hn, -⟩ := moving_configured hi hm
  by_cases hm' : t.phase = .stopped
  · simp [hm']
  · obtain ⟨hphase, hdelay⟩ := execNext_of_still_moving hi hm h hm'
    rw [hphase, hdelay]
    obtain hp | hp | hp := rampPoint_cases_of_moving (s := s) (by omega)
    · simp [hp]
    · rw [hp]
      exact ⟨nofun, nofun, fun _ => delay_le_decelStep s.delay.isLt⟩
    · rw [hp]
      exact ⟨fun _ => Nat.sub_le _ _, fun _ => accelStep_delay_lt, nofun⟩

end Sys2Proof.Machine
end

section
/-! SUPPORT. The statements of 41_stepping.md on a ramp that the host does not disturb (R110, R111, R133 (c)): what one
NEXT keeps on track and inside the braking distance, and the runs that repeat it. -/

namespace Sys2Proof.Machine

/-! ### One NEXT on track (41_stepping.md R133 (c)) -/

theorem rspStatus_of_tookStep {s t : State} {d n r : Nat} {p : Phase} (h : s.TookStep t d n r p) :
    t.rspStatus = some 0#2 := by
  obtain ⟨-, -, -, -, hrsp, -⟩ := h
  exact rspStatus_of_rsp (st := .ok) hrsp

theorem onTrack_iff_of_moving {s : State} (hm : s.phase ≠ .stopped) :
    s.OnTrack ↔ s.step.toNat < s.targetStep.toNat ∧ s.step.toNat + s.rampIndex.toNat ≤ s.targetStep.toNat + 1 := by
  rw [State.OnTrack, if_neg hm]

theorem onTrack_iff_of_atRest {s : State} (hp : s.phase = .stopped) :
    s.OnTrack ↔ s.step.toNat ≤ s.targetStep.toNat := by
  rw [State.OnTrack, if_pos hp]

theorem step_le_target_of_onTrack {s : State} (hon : s.OnTrack) : s.step.toNat ≤ s.targetStep.toNat := by
  by_cases hp : s.phase = .stopped
  · exact (onTrack_iff_of_atRest hp).mp hon
  · obtain ⟨hlt, -⟩ := (onTrack_iff_of_moving hp).mp hon
    exact hlt.le

/-- A moving block on track has a step to take. -/
theorem atRest_of_onTrack {s : State} (hon : s.OnTrack) (hT : s.targetStep.toNat ≤ s.step.toNat) :
    s.phase = .stopped := by
  by_contra hm
  obtain ⟨hlt, -⟩ := (onTrack_iff_of_moving hm).mp hon
  omega

/-- The ordinal of the next step fits the steps that then remain: only an acceleration step raises it, with `n + 1` steps
to go, and inside the braking distance each step lowers it. -/
theorem rampPoint_index_onTrack {s : State} (hi : s.Inv) (hon : s.OnTrack)
    (hT : s.step.toNat < s.targetStep.toNat) : s.step.toNat + s.rampPoint.index ≤ s.targetStep.toNat := by
  have hrem := s.remaining_eq
  obtain ⟨-, hp⟩ | ⟨h0, -, hp⟩ | ⟨h0, hr, -, hp⟩ | ⟨h0, hr, -, hp⟩ | ⟨h0, hr, -, hp⟩ := rampPoint_cases s
  · rw [hp]
    exact hT
  · obtain ⟨-, hfit⟩ := (onTrack_iff_of_moving (moving_of_rampIndex hi h0)).mp hon
    rw [hp]
    simp only [decelStep]
    omega
  · obtain ⟨-, -, hfloor⟩ | ⟨-, -, hfloor⟩ | ⟨-, hfloor⟩ := decelFloor_cases s.delay.toNat s.rampIndex.toNat
      (if s.phase = .decelerating then s.rest.toNat else 0) s.capDelay
    all_goals
      rw [hp, hfloor]
      simp only [decelStep]
      omega
  · obtain ⟨-, hclamp⟩ | ⟨-, hclamp⟩ := clampAccel_cases s.capDelay s.accelPoint
    all_goals
      rw [hp, hclamp]
      simp only [accelStep]
      omega
  · rw [hp]
    simp only [holdStep]
    omega

/-- A step whose ordinal fits the steps that then remain leaves the block on track, and at rest exactly on the target. -/
theorem onTrack_of_tookStep {s t : State} {d n r : Nat} {p : Phase} (h : s.TookStep t d n r p) (hp : p ≠ .stopped)
    (hT : s.step.toNat < s.targetStep.toNat) (hn : s.step.toNat + n ≤ s.targetStep.toNat) :
    t.step.toNat = s.step.toNat + 1 ∧ t.OnTrack ∧ (t.phase = .stopped ↔ t.step.toNat = t.targetStep.toNat) := by
  obtain ⟨⟨-, -, htarget, -⟩, hstep, -⟩ := id h
  have hlt := s.targetStep.isLt
  have hcount : t.step.toNat = s.step.toNat + 1 := by omega
  refine ⟨hcount, ?_⟩
  by_cases hstop : t.step.toNat ≥ s.targetStep.toNat ∧ n ≤ 1
  · obtain ⟨hrest, -⟩ := hasComeToRest_of_tookStep h hstop
    rw [onTrack_iff_of_atRest hrest, htarget]
    exact ⟨by omega, iff_of_true hrest (by omega)⟩
  · obtain ⟨hphase, -, hindex⟩ := registers_of_tookStep h hstop
    have hm : t.phase ≠ .stopped := hphase ▸ hp
    rw [onTrack_iff_of_moving hm, htarget]
    exact ⟨by omega, iff_of_false hm (by omega)⟩

/-- One NEXT of a configured block on track with the target ahead. -/
theorem execNext_of_target_ahead {s : State} (hi : s.Inv) (hc : s.Configured) (hon : s.OnTrack)
    (hT : s.step.toNat < s.targetStep.toNat) :
    ∃ t, execNext s = .next t ∧ t.rspStatus = some 0#2 ∧ t.step.toNat = s.step.toNat + 1 ∧ t.OnTrack ∧
      (t.phase = .stopped ↔ t.step.toNat = t.targetStep.toNat) := by
  have ht := takesStep_of_configured (not_or.mpr hc) (.inr hT)
  obtain ⟨t, h, htook⟩ := execNext_tookStep hi ht
  exact ⟨t, h, rspStatus_of_tookStep htook,
    onTrack_of_tookStep htook (rampPoint_legal hi ht).moving hT (rampPoint_index_onTrack hi hon hT)⟩

/-- A block on track that is not configured, or has no step to go, is at rest with nothing to do. -/
theorem hasNoStepToTake_of_onTrack {s : State} (hi : s.Inv) (hon : s.OnTrack)
    (h : ¬ (s.Configured ∧ s.step.toNat < s.targetStep.toNat)) : s.phase = .stopped ∧ s.HasNoStepToTake := by
  by_cases hu : s.Unconfigured
  · exact ⟨atRest_of_unconfigured hi hu, .inl hu⟩
  · have hT : s.targetStep.toNat ≤ s.step.toNat := Nat.le_of_not_lt fun hlt => h ⟨not_or.mp hu, hlt⟩
    have hp := atRest_of_onTrack hon hT
    exact ⟨hp, hasNoStepToTake_of_atRest hi hp hT⟩

/-- Settles O51. -/
theorem undisturbedRampNeverOvershoots : Obligations.UndisturbedRampNeverOvershoots := by
  unfold Obligations.UndisturbedRampNeverOvershoots
  intro s t hi hon h
  by_cases hgo : s.Configured ∧ s.step.toNat < s.targetStep.toNat
  · obtain ⟨hc, hT⟩ := hgo
    obtain ⟨u, hu, -, -, hon', hstop⟩ := execNext_of_target_ahead hi hc hon hT
    obtain rfl := Host.Outcome.next.inj (hu.symm.trans h)
    exact ⟨hon', step_le_target_of_onTrack hon', fun _ => hstop.mp⟩
  · obtain ⟨hp, hend⟩ := hasNoStepToTake_of_onTrack hi hon hgo
    obtain rfl := respond_next ((execNext_of_hasNoStepToTake hend).symm.trans h)
    exact ⟨hon, step_le_target_of_onTrack hon, fun hm => absurd hp hm⟩

/-! ### One NEXT inside the braking distance (41_stepping.md R110, R111) -/

/-- Braking lowers the ordinal by one, and from ordinal 2 comes to rest. -/
theorem execNext_of_braking {s : State} (hi : s.Inv) (hb : s.Braking) :
    ∃ t, execNext s = .next t ∧ t.rspStatus = some 0#2 ∧ t.step.toNat = min 4294967295 (s.step.toNat + 1) ∧
      (s.rampIndex.toNat = 2 → t.phase = .stopped ∧ t.speed.toNat = 0) ∧
      (2 < s.rampIndex.toNat → t.phase = .decelerating ∧ t.rampIndex.toNat + 1 = s.rampIndex.toNat) := by
  obtain ⟨hn, hT⟩ := id hb
  have hm := moving_of_rampIndex hi (by omega)
  obtain ⟨t, h, htook⟩ := exec_next_of_rampPoint hi (takesStep_of_moving hi hm (.inl hn)) (rampPoint_of_braking hb)
  obtain ⟨-, hstep, -⟩ := id htook
  have hlt := s.targetStep.isLt
  refine ⟨t, h, rspStatus_of_tookStep htook, hstep, fun h2 => ?_, fun h2 => ?_⟩
  · obtain ⟨hrest, hspeed, -⟩ := hasComeToRest_of_tookStep htook ⟨by omega, by simp only [decelStep]; omega⟩
    exact ⟨hrest, hspeed⟩
  · obtain ⟨hphase, -, hindex⟩ := registers_of_tookStep htook (by simp only [decelStep]; omega)
    exact ⟨hphase, by rw [hindex]; exact Nat.sub_add_cancel (by omega)⟩

/-- Settles O52. -/
theorem pointOfNoReturnKeepsEquality : Obligations.PointOfNoReturnKeepsEquality := by
  unfold Obligations.PointOfNoReturnKeepsEquality
  intro s t hi hon hb h
  obtain ⟨hn, hT⟩ := id hb
  have hm := moving_of_rampIndex hi (by omega)
  obtain ⟨hahead, hfit⟩ := (onTrack_iff_of_moving hm).mp hon
  obtain ⟨u, hu, -, hstep, hlast, hmore⟩ := execNext_of_braking hi hb
  obtain rfl := Host.Outcome.next.inj (hu.symm.trans h)
  obtain ⟨hon', -, hstop⟩ := undisturbedRampNeverOvershoots s u hi hon h
  obtain ⟨-, -, htarget, -⟩ := execNext_sameConfiguration hu
  have hlt := s.targetStep.isLt
  refine ⟨by omega, fun h2 => ?_, fun h2 => ?_⟩
  · obtain ⟨hrest, -⟩ := hlast h2
    exact ⟨hrest, hstop hm hrest⟩
  · obtain ⟨hphase, hindex⟩ := hmore h2
    have heq : u.targetStep.toNat = u.step.toNat + (u.rampIndex.toNat - 1) := by rw [htarget]; omega
    exact ⟨hphase, hon', ⟨by omega, heq.le⟩, hindex, heq⟩

/-! ### Runs of NEXT -/

/-- The command word of NEXT at the port (30_encoding.md R70). -/
abbrev nextEvent : PortEvent := .command 0x400000000#36

theorem step_of_nextEvent {s : State} {later : List PortEvent} (h : s.inputs = nextEvent :: later) :
    step s = execNext s.takeEvent := by
  rw [State.takeEvent_of_inputs_cons h]
  exact stepRunsDecodedInstruction s _ later .next h (decode_cmdWord .next 0#32)

theorem step_answers (s : State) : ∃ t, step s = .next t := by
  unfold step
  split
  · exact ⟨_, rfl⟩
  · exact ⟨_, rfl⟩
  · obtain ⟨t, ht, -⟩ := execWord_answers _ s.takeEvent
    exact ⟨t, ht⟩

/-- A run of one more event, taken at the end. -/
theorem run_succ_of_run {j : Nat} {s t u : State} (h : Sys2Proof.core.run j s = .next t) (hu : step t = .next u) :
    Sys2Proof.core.run (j + 1) s = .next u := by
  induction j generalizing s with
  | zero =>
    obtain rfl : s = t := Host.Outcome.next.inj h
    exact run_next hu
  | succ j ih =>
    obtain ⟨v, hv⟩ := step_answers s
    rw [run_next hv] at h ⊢
    exact ih h

/-- What holds at the start, and what each of the next `N` events carries from one number of events to the next, holds
along the run. -/
theorem run_induction {P : Nat → State → Prop} {N : Nat} {s : State} (h0 : P 0 s)
    (hstep : ∀ j t, j < N → P j t → ∃ u, step t = .next u ∧ P (j + 1) u) :
    ∀ j, j ≤ N → ∃ t, Sys2Proof.core.run j s = .next t ∧ P j t := by
  intro j
  induction j with
  | zero => exact fun _ => ⟨s, rfl, h0⟩
  | succ j ih =>
    intro hj
    obtain ⟨t, hrun, hP⟩ := ih (by omega)
    obtain ⟨u, hu, hP'⟩ := hstep j t hj hP
    exact ⟨u, run_succ_of_run hrun hu, hP'⟩

/-! ### A whole ramp (41_stepping.md R133 (c), R107) -/

/-- `t` is reached from `s` by `j` of the NEXTs presented, `k` of which remain: the steps still to go have been taken one
by one, and once they are used up each NEXT answers DONE. -/
structure State.RampAfter (s t : State) (j k : Nat) : Prop where
  inv : t.Inv
  configured : t.Configured
  onTrack : t.OnTrack
  target : t.targetStep = s.targetStep
  counted : t.step.toNat = s.step.toNat + min j (s.targetStep.toNat - s.step.toNat)
  presented : t.inputs = List.replicate k nextEvent
  answered : 0 < j → t.rspStatus = some (if j ≤ s.targetStep.toNat - s.step.toNat then 0#2 else 1#2)
  stopped_iff : 0 < j → (t.phase = .stopped ↔ t.step.toNat = t.targetStep.toNat)

theorem configured_of_sameConfiguration {s t : State} (h : s.SameConfiguration t) (hc : s.Configured) :
    t.Configured := by
  obtain ⟨-, haccel, -, hcap, -⟩ := h
  rwa [State.Configured, haccel, hcap]

/-- One more NEXT of the ramp. -/
theorem rampAfter_step {s t : State} {j k : Nat} (h : s.RampAfter t j (k + 1)) :
    ∃ u, step t = .next u ∧ s.RampAfter u (j + 1) k := by
  obtain ⟨hi, hc, hon, htarget, hcount, hin, -, -⟩ := h
  rw [step_of_nextEvent hin]
  have hi' : t.takeEvent.Inv := hi
  have hon' : t.takeEvent.OnTrack := hon
  have htail : t.takeEvent.inputs = List.replicate k nextEvent := by
    rw [State.takeEvent_inputs, hin, List.replicate_succ, List.tail_cons]
  have hle := step_le_target_of_onTrack hon
  by_cases hT : t.step.toNat < t.targetStep.toNat
  · obtain ⟨u, hu, hok, hstep, hon'', hstop⟩ := execNext_of_target_ahead hi' hc hon' hT
    have hsame := execNext_sameConfiguration hu
    obtain ⟨-, -, htarget', -, hin'⟩ := id hsame
    rw [State.takeEvent_step] at hstep
    rw [htarget] at hT
    refine ⟨u, hu, execNext_inv hi' hu, configured_of_sameConfiguration hsame hc, hon'', htarget'.trans htarget,
      by omega, hin'.trans htail, fun _ => ?_, fun _ => hstop⟩
    rw [if_pos (by omega)]
    exact hok
  · have hp := atRest_of_onTrack hon (Nat.le_of_not_lt hT)
    have hend := hasNoStepToTake_of_atRest hi' hp (Nat.le_of_not_lt hT)
    have hstep : t.step.toNat = t.targetStep.toNat := hle.antisymm (Nat.le_of_not_lt hT)
    rw [htarget] at hT hle
    refine ⟨_, execNext_of_hasNoStepToTake hend, hi, hc, hon, htarget, hcount.trans (by omega), htail, fun _ => ?_,
      fun _ => iff_of_true hp hstep⟩
    rw [if_neg (by omega)]
    exact rspStatus_of_rsp (st := .done) rfl

/-- Settles O53: the ramp and what follows it are one run. -/
theorem rampTakesExactlyTheRemainingSteps : Obligations.RampTakesExactlyTheRemainingSteps := by
  unfold Obligations.RampTakesExactlyTheRemainingSteps
  intro s m hi hc hon hin
  have hle := step_le_target_of_onTrack hon
  have hrun := run_induction (N := s.targetStep.toNat - s.step.toNat + m)
    (P := fun j t => s.RampAfter t j (s.targetStep.toNat - s.step.toNat + m - j))
    ⟨hi, hc, hon, rfl, by simp, hin, nofun, nofun⟩
    (fun j t hj h => rampAfter_step (by
      rwa [show s.targetStep.toNat - s.step.toNat + m - j
        = s.targetStep.toNat - s.step.toNat + m - (j + 1) + 1 by omega] at h))
  refine ⟨fun j h1 hj => ?_, fun j h1 hj => ?_⟩
  · obtain ⟨t, ht, hafter⟩ := hrun j (by omega)
    refine ⟨t, ht, ?_, ?_, ?_⟩
    · rw [hafter.answered h1, if_pos hj]
    · rw [hafter.counted, min_eq_left hj]
    · rw [hafter.stopped_iff h1, hafter.target]
  · obtain ⟨t, ht, hafter⟩ := hrun (s.targetStep.toNat - s.step.toNat + j) (by omega)
    have hstep : t.step.toNat = s.targetStep.toNat := by
      rw [hafter.counted]
      omega
    have hp : t.phase = .stopped := (hafter.stopped_iff (by omega)).mpr (by rw [hstep, hafter.target])
    obtain ⟨-, hspeed, -⟩ := hasComeToRest_of_inv hafter.inv hp
    refine ⟨t, ht, ?_, hp, hspeed, hstep⟩
    rw [hafter.answered (by omega), if_neg (by omega)]

/-! ### Braking to rest (41_stepping.md R111) -/

/-- `t` is reached from `s` by `j` NEXTs inside the braking distance. -/
structure State.BrakedFor (s t : State) (later : List PortEvent) (j : Nat) : Prop where
  inv : t.Inv
  target : t.targetStep = s.targetStep
  counted : t.step.toNat = s.step.toNat + j
  presented : t.inputs = List.replicate (s.rampIndex.toNat - 1 - j) nextEvent ++ later
  answered : 0 < j → t.rspStatus = some 0#2
  index : j < s.rampIndex.toNat - 1 → t.rampIndex.toNat + j = s.rampIndex.toNat
  decelerating : 0 < j → j < s.rampIndex.toNat - 1 → t.phase = .decelerating
  atRest : j = s.rampIndex.toNat - 1 → t.phase = .stopped ∧ t.speed.toNat = 0

/-- One more NEXT inside the braking distance. -/
theorem brakedFor_step {s t : State} {later : List PortEvent} {j : Nat} (hb : s.Braking)
    (hfit : s.step.toNat + (s.rampIndex.toNat - 1) ≤ 4294967295) (hj : j < s.rampIndex.toNat - 1)
    (h : s.BrakedFor t later j) : ∃ u, step t = .next u ∧ s.BrakedFor u later (j + 1) := by
  obtain ⟨hi, htarget, hcount, hin, -, hindex, -, -⟩ := h
  obtain ⟨hn, hT⟩ := hb
  replace hindex := hindex hj
  rw [show s.rampIndex.toNat - 1 - j = s.rampIndex.toNat - 1 - (j + 1) + 1 by omega, List.replicate_succ,
    List.cons_append] at hin
  rw [step_of_nextEvent hin]
  have hi' : t.takeEvent.Inv := hi
  have hbraking : t.takeEvent.Braking := by
    rw [State.Braking, State.takeEvent_rampIndex, State.takeEvent_targetStep, State.takeEvent_step, htarget]
    omega
  obtain ⟨u, hu, hok, hstep, hlast, hmore⟩ := execNext_of_braking hi' hbraking
  obtain ⟨-, -, htarget', -, hin'⟩ := execNext_sameConfiguration hu
  rw [State.takeEvent_inputs, hin, List.tail_cons] at hin'
  rw [State.takeEvent_step] at hstep
  rw [State.takeEvent_rampIndex] at hlast hmore
  refine ⟨u, hu, execNext_inv hi' hu, htarget'.trans htarget, by omega, hin', fun _ => hok, fun hlt => ?_,
    fun _ hlt => ?_, fun heq => hlast (by omega)⟩
  · obtain ⟨-, hindex'⟩ := hmore (by omega)
    omega
  · obtain ⟨hphase, -⟩ := hmore (by omega)
    exact hphase

/-- Settles O54. -/
theorem brakingTakesIndexMinusOneSteps : Obligations.BrakingTakesIndexMinusOneSteps := by
  unfold Obligations.BrakingTakesIndexMinusOneSteps
  intro s later hi hb hfit hin j h1 hj
  have h0 : s.BrakedFor s later 0 := by
    obtain ⟨hn, -⟩ := hb
    exact ⟨hi, rfl, rfl, hin, nofun, fun _ => rfl, nofun, fun h => by omega⟩
  obtain ⟨t, ht, hafter⟩ := run_induction (P := fun j t => s.BrakedFor t later j) h0
    (fun _ _ hlt => brakedFor_step hb hfit hlt) j hj
  exact ⟨t, ht, hafter.answered h1, hafter.counted,
    fun hlt => ⟨hafter.decelerating h1 hlt, hafter.index hlt⟩, hafter.atRest⟩

end Sys2Proof.Machine
end

section
/-! SUPPORT. The statement of 41_stepping.md on the wider integer type (R127): within the bounds of the rule `wide`
commutes with every operation used, so that a 64-bit expression is the word of the exact one. -/

namespace Sys2Proof.Machine

/-! ### Numbers as 64-bit words -/

theorem wide_toNat {k : Nat} (h : k < 2 ^ 64) : (wide k).toNat = k := by
  rw [BitVec.toNat_ofNat, Nat.mod_eq_of_lt h]

theorem wide_add (a b : Nat) : wide a + wide b = wide (a + b) := (BitVec.ofNat_add a b).symm

theorem wide_mul (a b : Nat) : wide a * wide b = wide (a * b) := (BitVec.ofNat_mul a b).symm

theorem wide_sub {a b : Nat} (h : b ≤ a) : wide a - wide b = wide (a - b) := by
  rw [sub_eq_iff_eq_add, wide_add, Nat.sub_add_cancel h]

theorem wide_div {a b : Nat} (ha : a < 2 ^ 64) (hb : b < 2 ^ 64) : wide a / wide b = wide (a / b) := by
  apply BitVec.eq_of_toNat_eq
  rw [BitVec.toNat_udiv, wide_toNat ha, wide_toNat hb, wide_toNat ((Nat.div_le_self a b).trans_lt ha)]

theorem wide_mod {a b : Nat} (ha : a < 2 ^ 64) (hb : b < 2 ^ 64) : wide a % wide b = wide (a % b) := by
  apply BitVec.eq_of_toNat_eq
  rw [BitVec.toNat_umod, wide_toNat ha, wide_toNat hb, wide_toNat ((Nat.mod_le a b).trans_lt ha)]

theorem wide_shiftLeft (a k : Nat) : wide a <<< k = wide (a * 2 ^ k) := by
  rw [BitVec.shiftLeft_eq_mul_twoPow, ← wide_mul]
  congr 1
  apply BitVec.eq_of_toNat_eq
  rw [BitVec.toNat_twoPow, BitVec.toNat_ofNat]

theorem wide_shiftRight {a k : Nat} (ha : a < 2 ^ 64) : wide a >>> k = wide (a / 2 ^ k) := by
  apply BitVec.eq_of_toNat_eq
  rw [BitVec.toNat_ushiftRight, wide_toNat ha, Nat.shiftRight_eq_div_pow,
    wide_toNat ((Nat.div_le_self _ _).trans_lt ha)]

theorem wide_le_iff {a b : Nat} (ha : a < 2 ^ 64) (hb : b < 2 ^ 64) : wide a ≤ wide b ↔ a ≤ b := by
  rw [BitVec.le_def, wide_toNat ha, wide_toNat hb]

theorem wide_lt_iff {a b : Nat} (ha : a < 2 ^ 64) (hb : b < 2 ^ 64) : wide a < wide b ↔ a < b := by
  rw [BitVec.lt_def, wide_toNat ha, wide_toNat hb]

theorem wide_inj {a b : Nat} (ha : a < 2 ^ 64) (hb : b < 2 ^ 64) : wide a = wide b ↔ a = b := by
  rw [← BitVec.toNat_inj, wide_toNat ha, wide_toNat hb]

/-! ### The recurrence (41_stepping.md R119, R121) -/

theorem wide_recurrenceNum (c r : Nat) : 2#64 * wide c + wide r = wide (2 * c + r) := by
  rw [wide_mul, wide_add]

theorem wide_accelDen (n : Nat) : 4#64 * wide n + 1#64 = wide (4 * n + 1) := by
  rw [wide_mul, wide_add]

theorem wide_decelDen {n : Nat} (hn : 2 ≤ n) : 4#64 * (wide n - 1#64) - 1#64 = wide (4 * (n - 1) - 1) := by
  rw [wide_sub (by omega), wide_mul, wide_sub (by omega)]

section
variable {c r n : Nat} (hc : c < 2 ^ 32) (hr : r < 2 ^ 32) (hn : n < 2 ^ 30)
include hc hr hn

theorem wide_accel_div :
    (2#64 * wide c + wide r) / (4#64 * wide n + 1#64) = wide ((2 * c + r) / (4 * n + 1)) := by
  rw [wide_recurrenceNum, wide_accelDen, wide_div (by omega) (by omega)]

theorem wide_accel_mod :
    (2#64 * wide c + wide r) % (4#64 * wide n + 1#64) = wide ((2 * c + r) % (4 * n + 1)) := by
  rw [wide_recurrenceNum, wide_accelDen, wide_mod (by omega) (by omega)]

theorem wide_decel_div (hn2 : 2 ≤ n) :
    (2#64 * wide c + wide r) / (4#64 * (wide n - 1#64) - 1#64) = wide ((2 * c + r) / (4 * (n - 1) - 1)) := by
  rw [wide_recurrenceNum, wide_decelDen hn2, wide_div (by omega) (by omega)]

theorem wide_decel_mod (hn2 : 2 ≤ n) :
    (2#64 * wide c + wide r) % (4#64 * (wide n - 1#64) - 1#64) = wide ((2 * c + r) % (4 * (n - 1) - 1)) := by
  rw [wide_recurrenceNum, wide_decelDen hn2, wide_mod (by omega) (by omega)]

end

/-- The quotient of a recurrence division is at most its numerator. -/
theorem recurrence_div_lt {c r : Nat} (hc : c < 2 ^ 32) (hr : r < 2 ^ 32) (d : Nat) :
    (2 * c + r) / d < 2 ^ 34 :=
  (Nat.div_le_self _ _).trans_lt (by omega)

/-! ### The derived values (10_state.md R35 to R37) -/

theorem cruiseDelay_le_of_tps {F V : Nat} (hF : F < 2 ^ 32) (hV : V ≠ 0) : cruiseDelay F V ≤ 2 ^ 48 := by
  rw [cruiseDelay_le_iff hV]
  calc F * 65536 ≤ 1 * 2 ^ 48 := by omega
    _ ≤ V * 2 ^ 48 := Nat.mul_le_mul_right _ (Nat.pos_of_ne_zero hV)

theorem wide_cruiseDelay {F V : Nat} (hF : F < 2 ^ 32) (hV1 : 1 ≤ V) (hV : V < 2 ^ 31) :
    ((wide F <<< 16) + wide V - 1#64) / wide V = wide (cruiseDelay F V) := by
  rw [wide_shiftLeft, wide_add, wide_sub (by omega), wide_div (by omega) (by omega), cruiseDelay, if_neg (by omega),
    cdiv, Nat.shiftLeft_eq]

theorem wide_speedOf {F V c : Nat} (hF : F < 2 ^ 32) (hV1 : 1 ≤ V) (hV : V < 2 ^ 31) (hc1 : 1 ≤ c)
    (hc : c < 2 ^ 32) :
    (if wide c = ((wide F <<< 16) + wide V - 1#64) / wide V then wide V else (wide F <<< 16) / wide c) =
      wide (speedOf F V c) := by
  have hcd := cruiseDelay_le_of_tps hF (V := V) (by omega)
  rw [wide_cruiseDelay hF hV1 hV, wide_shiftLeft, wide_div (by omega) (by omega), speedOf_eq hc1, apply_ite wide]
  simp only [wide_inj (show c < 2 ^ 64 by omega) (show cruiseDelay F V < 2 ^ 64 by omega)]
  rfl

theorem speedOf_lt_of_tps {F V c : Nat} (hF : F < 2 ^ 32) (hV : V < 2 ^ 31) (hc1 : 1 ≤ c) :
    speedOf F V c < 2 ^ 48 := by
  rw [speedOf_eq hc1]
  split
  · exact hV.trans (by norm_num)
  · exact (Nat.div_le_self _ _).trans_lt (by omega)

theorem wide_seedQuotient {A : Nat} (hA : A < 2 ^ 31) :
    (913952#64 <<< 40) / wide A = wide (913952 * 2 ^ 40 / A) := by
  rw [wide_shiftLeft, wide_div (by norm_num) (by omega)]

/-- The root over 64-bit words: both sides keep `w` below `2^30`, where neither product wraps. -/
theorem wide_root_iff {q : Nat} (hq : q < 2 ^ 60) {w : BitVec 64} (hw : w.toNat < 2 ^ 32) :
    (w * w ≤ wide q ∧ wide q < (w + 1#64) * (w + 1#64)) ↔ w.toNat = isqrt q := by
  obtain ⟨k, hk, rfl⟩ : ∃ k, k < 2 ^ 32 ∧ wide k = w := ⟨w.toNat, hw, BitVec.ofNat_toNat 64 w⟩
  have hsq : k * k < 2 ^ 64 := (Nat.mul_lt_mul'' hk hk).trans_eq (by norm_num)
  rw [wide_toNat (by omega), wide_add, wide_mul, wide_mul, wide_le_iff hsq (by omega), isqrt_eq_sqrt,
    Nat.eq_sqrt]
  by_cases hsmall : k < 2 ^ 30
  · have hk' : k + 1 < 2 ^ 32 := by omega
    have hsq' : (k + 1) * (k + 1) < 2 ^ 64 := (Nat.mul_lt_mul'' hk' hk').trans_eq (by norm_num)
    rw [wide_lt_iff (by omega) hsq']
  · have hbig : 2 ^ 30 * 2 ^ 30 ≤ k * k := Nat.mul_le_mul (by omega) (by omega)
    exact iff_of_false (fun h => by omega) (fun h => by omega)

theorem seedProduct_lt {F A : Nat} (hF : F < 2 ^ 32) (hA : A ≠ 0) :
    F * isqrt (913952 * 2 ^ 40 / A) < 2 ^ 62 := by
  obtain ⟨hformula, -⟩ := firstDelayFormula
  obtain ⟨-, -, -, hprod⟩ := hformula F A hA
  rw [isqrt_eq_sqrt]
  exact hprod hF

theorem wide_firstDelay {F A : Nat} (hF : F < 2 ^ 32) (hA : A ≠ 0) :
    (wide F * wide (isqrt (913952 * 2 ^ 40 / A)) / 1000#64) >>> 8 = wide (firstDelay F A) := by
  have hprod := seedProduct_lt hF hA
  have hquot := (Nat.div_le_self (F * isqrt (913952 * 2 ^ 40 / A)) 1000).trans_lt hprod
  rw [wide_mul, wide_div (by omega) (by norm_num), wide_shiftRight (by omega), firstDelay_eq hA, isqrt_eq_sqrt,
    show 2 ^ 8 = 256 from rfl]

theorem firstDelay_lt_of_tps {F A : Nat} (hF : F < 2 ^ 32) (hA : A ≠ 0) : firstDelay F A < 2 ^ 62 := by
  rw [firstDelay_eq hA, ← isqrt_eq_sqrt]
  exact ((Nat.div_le_self _ _).trans (Nat.div_le_self _ _)).trans_lt (seedProduct_lt hF hA)

/-! ### The resynchronised index (40_configuration.md R90) -/

theorem speedSquare_lt {v : Nat} (hv : v < 2 ^ 31) : v * v < 2 ^ 62 :=
  (Nat.mul_lt_mul'' hv hv).trans_eq (by norm_num)

theorem wide_resyncIndex {v A : Nat} (hv : v < 2 ^ 31) (hA : A < 2 ^ 31) :
    wide v * wide v / (512#64 * wide A) + 1#64 = wide (v * v / (512 * A) + 1) := by
  have hsq := speedSquare_lt hv
  rw [wide_mul, wide_mul, wide_div (by omega) (by omega), wide_add]

/-- Settles O45. -/
theorem sixtyFourBitArithmeticAgrees : Obligations.SixtyFourBitArithmeticAgrees := by
  unfold Obligations.SixtyFourBitArithmeticAgrees
  intro F A V c r n v s T hF hA1 hA hV1 hV hc hr hn1 hn hv hs hT
  have haccel := recurrence_div_lt hc hr (4 * n + 1)
  have hdecel := recurrence_div_lt hc hr (4 * (n - 1) - 1)
  have hcd := cruiseDelay_le_of_tps hF (V := V) (by omega)
  have hfd := firstDelay_lt_of_tps hF (A := A) (by omega)
  have hq := seedQuotient_lt A
  have hsq := speedSquare_lt hv
  refine ⟨⟨by omega, by omega, by omega, hq, seedProduct_lt hF (by omega), hsq, by omega⟩, ?_, ?_, fun hle => ?_,
    fun hn2 => ⟨?_, ?_, ?_⟩, ?_, ?_, fun hle => ?_, ?_, fun hc1 => ?_, ?_, fun w hw => ?_, ?_, ?_⟩
  · rw [wide_accel_div hc hr hn, wide_toNat (by omega)]
  · rw [wide_accel_mod hc hr hn, wide_toNat ((Nat.mod_le _ _).trans_lt (by omega))]
  · rw [wide_accel_div hc hr hn, wide_sub hle, wide_toNat ((Nat.sub_le _ _).trans_lt (by omega))]
  · omega
  · rw [wide_decel_div hc hr hn hn2, wide_add, wide_toNat (by omega)]
  · rw [wide_decel_mod hc hr hn hn2, wide_toNat ((Nat.mod_le _ _).trans_lt (by omega))]
  · rw [wide_add, wide_toNat (by omega)]
  · rw [wide_add, wide_toNat (by omega)]
  · rw [wide_sub hle, wide_toNat (by omega)]
  · rw [wide_cruiseDelay hF hV1 hV, wide_toNat (by omega)]
  · rw [wide_speedOf hF hV1 hV hc1 hc, wide_toNat ((speedOf_lt_of_tps hF hV hc1).trans (by norm_num))]
  · rw [wide_seedQuotient hA, wide_toNat (by omega)]
  · rw [wide_seedQuotient hA]
    exact wide_root_iff hq hw
  · rw [wide_firstDelay hF (by omega), wide_toNat (by omega)]
  · have hle := Nat.div_le_self (v * v) (512 * A)
    rw [wide_resyncIndex hv hA, wide_toNat (by omega)]

end Sys2Proof.Machine
end

section
/-! SUPPORT. The statements of 42_telemetry.md: what each read answers (R140 to R144), and that reads placed anywhere in
a host's stream disturb neither the registers nor another answer (R145). The ground of R145 is that an operation looks
at the registers alone: on another port, with other events to come and another response, it does the same. -/

namespace Sys2Proof.Machine

/-! ### What a read answers (42_telemetry.md R140 to R144) -/

/-- Settles O28: the four rows of the opcode map, then the response that each read builds. -/
theorem readsAnswerTheirRegister : Obligations.ReadsAnswerTheirRegister := by
  unfold Obligations.ReadsAnswerTheirRegister
  refine ⟨fun arg => ⟨?_, ?_, ?_, ?_⟩, fun s => ⟨rfl, rfl, rfl, ?_⟩⟩
  · exact decode_cmdWord .getStep arg
  · exact decode_cmdWord .getSpeed arg
  · exact decode_cmdWord .getDelay arg
  · exact decode_cmdWord .getPhase arg
  · obtain ⟨_, _, _, _, _, _, _, _, _, phase, _, _⟩ := s
    cases phase <;> rfl

/-! ### A word that is a read (42_telemetry.md R140) -/

/-- The command word selects one of the four reads (30_encoding.md R70). -/
abbrev IsReadWord (w : CmdWord) : Prop := (cmdOp w).toNat ∈ [0x8, 0x9, 0xA, 0xB]

theorem opcodeCode_mem_reads_iff (op : Opcode) :
    (opcodeCode op).toNat ∈ [0x8, 0x9, 0xA, 0xB] ↔ op ∈ [.getStep, .getSpeed, .getDelay, .getPhase] := by
  cases op <;> decide

theorem opcodeOf_ne_none_of_isReadWord {w : CmdWord} (hw : IsReadWord w) : opcodeOf (cmdOp w) ≠ none := by
  intro hnone
  have hcode := (opcodeOf_eq_none_iff _).mp hnone
  simp only [IsReadWord, List.mem_cons, List.not_mem_nil, or_false] at hw hcode
  omega

/-- A read leaves its answer and nothing else. -/
theorem registers_of_execWord_read {w : CmdWord} (hw : IsReadWord w) {s t : State} (h : execWord w s = .next t) :
    t.registers = s.registers := by
  obtain ⟨op, hop, hexec⟩ | ⟨hnone, -⟩ := execWord_cases h
  · rw [IsReadWord, hop, opcodeCode_mem_reads_iff] at hw
    simp only [List.mem_cons, List.not_mem_nil, or_false] at hw
    obtain rfl | rfl | rfl | rfl := hw
    · obtain rfl := execGetStep_next hexec; rfl
    · obtain rfl := execGetSpeed_next hexec; rfl
    · obtain rfl := execGetDelay_next hexec; rfl
    · obtain rfl := execGetPhase_next hexec; rfl
  · exact absurd hnone (opcodeOf_ne_none_of_isReadWord hw)

/-! ### The registers on another port -/

/-- The registers of `s`, with other events to come and another response. -/
def State.atPort (s : State) (later : List PortEvent) (r : Option RspWord) : State :=
  { s with inputs := later, rsp := r }

theorem eq_atPort_of_registers_eq {s s' : State} (h : s.registers = s'.registers) :
    s' = s.atPort s'.inputs s'.rsp :=
  calc s' = s'.registers.atPort s'.inputs s'.rsp := rfl
    _ = s.registers.atPort s'.inputs s'.rsp := by rw [h]
    _ = s.atPort s'.inputs s'.rsp := rfl

theorem afterStep_atPort (s : State) (later : List PortEvent) (r : Option RspWord) (p : RampPoint) :
    (s.atPort later r).afterStep p = (s.afterStep p).atPort later r := by
  have hstop : (s.atPort later r).stopsAt p = s.stopsAt p := rfl
  unfold State.afterStep
  rw [hstop]
  split <;> rfl

/-- NEXT in the terminal state of a block that still moves (41_stepping.md R107 (b)). -/
theorem execNext_of_comesToRest {s : State} (hu : ¬ s.Unconfigured) (hrem : s.remaining = 0)
    (hn : s.rampIndex.toNat ≤ 1) (hm : s.phase ≠ .stopped) :
    execNext s = s.comeToRest.respond .done (toReg s.seedDelay) := by
  unfold execNext
  rw [if_neg hu, if_pos ⟨hrem, hn⟩, if_pos hm]

theorem execNext_atPort {s t : State} (h : execNext s = .next t) (later : List PortEvent) (r : Option RspWord) :
    execNext (s.atPort later r) = .next (t.atPort later t.rsp) := by
  obtain ⟨hu, rfl⟩ | ⟨-, hrem, hn, hp, rfl⟩ | ⟨hu, hrem, hn, hm, rfl⟩ | ⟨ht, rfl⟩ := execNext_cases h
  · exact execNext_of_hasNoStepToTake (.inl hu)
  · exact execNext_of_hasNoStepToTake (.inr ⟨hrem, hn, hp⟩)
  · exact execNext_of_comesToRest hu hrem hn hm
  · have hpoint : (s.atPort later r).rampPoint = s.rampPoint := rfl
    rw [execNext_of_takesStep (s := s.atPort later r) ht, hpoint, afterStep_atPort]
    rfl

/-- An operation looks at the registers alone, and leaves the events to come (42_telemetry.md R145, 41_stepping.md
R105). -/
theorem exec_atPort {i : Instr} {s t : State} (h : exec i s = .next t) (later : List PortEvent) (r : Option RspWord) :
    exec i (s.atPort later r) = .next (t.atPort later t.rsp) := by
  cases i with
  | new F =>
    obtain ⟨hF, rfl⟩ | ⟨hF, rfl⟩ := execNew_cases h
    · exact exec_of_argumentRejected (i := .new F) hF
    · exact execNew_of_ne_zero hF _
  | setAcceleration a =>
    obtain ⟨hrej, rfl⟩ | ⟨hacc, hp, rfl⟩ | ⟨hacc, hm, rfl⟩ := execSetAcceleration_cases h
    · exact exec_of_argumentRejected (i := .setAcceleration a) hrej
    · obtain ⟨-, -, -, hlt⟩ := id hacc
      rw [toReg_eq_ofNat hlt]
      exact exec_setAcceleration_of_atRest (s := s.atPort later r) hacc hp
    · rw [toReg_eq_ofNat ((resyncIndex_bounds _ _).2.trans_lt (by norm_num))]
      exact exec_setAcceleration_of_moving (s := s.atPort later r) hacc hm
  | setTargetStep T => obtain rfl := execSetTargetStep_next h; rfl
  | setTargetSpeed v =>
    obtain ⟨hrej, rfl⟩ | ⟨hacc, rfl⟩ := execSetTargetSpeed_cases h
    · exact exec_of_argumentRejected (i := .setTargetSpeed v) hrej
    · exact exec_setTargetSpeed_of_accepted (s := s.atPort later r) hacc
  | next => exact execNext_atPort h later r
  | getStep => obtain rfl := execGetStep_next h; rfl
  | getSpeed => obtain rfl := execGetSpeed_next h; rfl
  | getDelay => obtain rfl := execGetDelay_next h; rfl
  | getPhase => obtain rfl := execGetPhase_next h; rfl

theorem execWord_atPort {w : CmdWord} {s t : State} (h : execWord w s = .next t) (later : List PortEvent)
    (r : Option RspWord) : execWord w (s.atPort later r) = .next (t.atPort later t.rsp) := by
  obtain ⟨op, hop, hexec⟩ | ⟨hnone, rfl⟩ := execWord_cases h
  · rw [execWord_of_decode_ok (decode_of_assigned hop)]
    exact exec_atPort hexec later r
  · exact execWord_of_reserved hnone _

/-- What a command word answers depends on the registers alone. -/
theorem execWord_of_registers_eq {w : CmdWord} {s s' t t' : State} (hr : s.registers = s'.registers)
    (h : execWord w s = .next t) (h' : execWord w s' = .next t') : t.rsp = t'.rsp ∧ t.registers = t'.registers := by
  rw [eq_atPort_of_registers_eq hr, execWord_atPort h] at h'
  obtain rfl := Host.Outcome.next.inj h'
  exact ⟨rfl, rfl⟩

/-! ### A stream with its reads taken out (42_telemetry.md R145) -/

/-- The port moves on to the events that follow, whatever the event. -/
theorem step_of_event {s : State} {e : PortEvent} {later : List PortEvent} (h : s.inputs = e :: later) :
    ∃ t, step s = .next t ∧ t.inputs = later := by
  cases e with
  | reset => exact ⟨_, step_of_reset h, rfl⟩
  | command w =>
    obtain ⟨t, ht, hin, -⟩ := execWord_answers w { s with inputs := later, rsp := none }
    exact ⟨t, (step_of_command h).trans ht, hin⟩

/-- A read at the port leaves the registers. -/
theorem registers_of_step_read {w : CmdWord} (hw : IsReadWord w) {s t : State} {later : List PortEvent}
    (hin : s.inputs = .command w :: later) (h : step s = .next t) : t.registers = s.registers := by
  rw [step_of_command hin] at h
  exact (registers_of_execWord_read hw h :)

/-- The same event leaves the same registers, whatever follows it. -/
theorem registers_of_step_eq {s s' t t' : State} {e : PortEvent} {later later' : List PortEvent}
    (hin : s.inputs = e :: later) (hin' : s'.inputs = e :: later') (hr : s.registers = s'.registers)
    (h : step s = .next t) (h' : step s' = .next t') : t.registers = t'.registers := by
  cases e with
  | reset =>
    rw [step_of_reset hin] at h
    rw [step_of_reset hin'] at h'
    obtain rfl := Host.Outcome.next.inj h
    obtain rfl := Host.Outcome.next.inj h'
    rfl
  | command w =>
    rw [step_of_command hin] at h
    rw [step_of_command hin'] at h'
    have hr' : (s.atPort later none).registers = (s'.atPort later' none).registers := hr
    exact (execWord_of_registers_eq hr' h h').2

/-- Two blocks with the same registers, one of which is not given the reads, end with the same registers. -/
theorem run_without_reads {isRead : PortEvent → Bool}
    (hread : ∀ e, isRead e = true → ∃ w, e = .command w ∧ IsReadWord w) {events : List PortEvent} {s s' : State}
    (hin : s.inputs = events) (hin' : s'.inputs = events.filter (fun e => !isRead e))
    (hr : s.registers = s'.registers) :
    ∃ t u, Sys2Proof.core.run events.length s = .next t ∧
      Sys2Proof.core.run (events.filter (fun e => !isRead e)).length s' = .next u ∧ t.registers = u.registers := by
  induction events generalizing s s' with
  | nil => exact ⟨s, s', rfl, rfl, hr⟩
  | cons e later ih =>
    obtain ⟨v, hv, hvin⟩ := step_of_event hin
    rw [List.length_cons, run_next hv]
    cases he : isRead e with
    | true =>
      obtain ⟨w, rfl, hw⟩ := hread e he
      rw [List.filter_cons_of_neg (by simp [he])] at hin' ⊢
      exact ih hvin hin' ((registers_of_step_read hw hin hv).trans hr)
    | false =>
      rw [List.filter_cons_of_pos (by simp [he])] at hin' ⊢
      obtain ⟨v', hv', hvin'⟩ := step_of_event hin'
      rw [List.length_cons, run_next hv']
      exact ih hvin hvin' (registers_of_step_eq hin hin' hr hv hv')

/-- Settles O29, by induction on the stream: a read leaves the registers, and any other event does the same with and
without the reads before it. -/
theorem readsDoNotDisturbTheRamp : Obligations.ReadsDoNotDisturbTheRamp := by
  unfold Obligations.ReadsDoNotDisturbTheRamp
  refine ⟨fun s events isRead hread => ?_, fun w s s' t t' => execWord_of_registers_eq⟩
  exact run_without_reads (fun e => (hread e).mp) rfl rfl rfl

end Sys2Proof.Machine
end

section
/-! SUPPORT. The statements of 60_exceptions.md: the idle port (R166), the answer to every event (R160) and the run of any
length that follows from it, the table of INVALID_ARGUMENT (R150, R151), and the error that leaves no trace (R158). -/

namespace Sys2Proof.Machine

/-! ### The idle port (60_exceptions.md R166) -/

/-- Settles O12. -/
theorem idlePortHoldsRegisters : Obligations.IdlePortHoldsRegisters := by
  unfold Obligations.IdlePortHoldsRegisters
  intro s hin
  simp only [step, hin, State.idle]

/-! ### Every event is answered (60_exceptions.md R160) -/

/-- Settles O13: nothing presented, a reset edge, and a command word, of which the last alone writes `rsp`. -/
theorem everyEventIsAnswered : Obligations.EveryEventIsAnswered := by
  unfold Obligations.EveryEventIsAnswered
  intro s
  match hin : s.inputs with
  | [] => exact ⟨_, idlePortHoldsRegisters s hin, hin, by simp [State.rspValid]⟩
  | .reset :: later => exact ⟨_, step_of_reset hin, rfl, by simp [State.rspValid, State.reset]⟩
  | .command w :: later =>
    obtain ⟨t, ht, htin, hrsp⟩ := execWord_answers w { s with inputs := later, rsp := none }
    exact ⟨t, (step_of_command hin).trans ht, htin, iff_of_true hrsp ⟨w, later, rfl⟩⟩

/-- Settles O49, by induction on the events of the run: each is answered (O13), and its step keeps the invariant (O48). -/
theorem everyRunIsSafe : Obligations.EveryRunIsSafe := by
  unfold Obligations.EveryRunIsSafe
  intro n s hi
  have hrun : ∃ t, Sys2Proof.core.run n s = .next t ∧ t.Inv ∧ t.inputs = s.inputs.drop n := by
    refine run_induction (P := fun j t => t.Inv ∧ t.inputs = s.inputs.drop j) ⟨hi, rfl⟩ ?_ n le_rfl
    rintro j t - ⟨hinv, hin⟩
    obtain ⟨u, hu, huin, -⟩ := everyEventIsAnswered t
    exact ⟨u, hu, everyStepKeepsTheInvariant t u hinv hu, by rw [huin, hin, List.tail_drop]⟩
  obtain ⟨t, ht, -⟩ := id hrun
  exact ⟨⟨t, ht⟩, hrun⟩

/-! ### The table of INVALID_ARGUMENT (60_exceptions.md R150, R151) -/

/-- Settles O23: the guards of the three operations, turned round, are the rows of the table. -/
theorem invalidArgumentExactlyWhenListed : Obligations.InvalidArgumentExactlyWhenListed := by
  unfold Obligations.InvalidArgumentExactlyWhenListed
  refine ⟨fun i s t h => ⟨(rspStatus_eq_two_iff_argumentRejected h).trans ?_, fun h2 => ?_⟩, fun s t a hF h => ?_⟩
  · cases i with
    | setAcceleration a =>
      simp only [ArgumentRejected, AccelAccepted]
      omega
    | setTargetSpeed v =>
      simp only [ArgumentRejected, SpeedAccepted]
      omega
    | new | setTargetStep | next | getStep | getSpeed | getDelay | getPhase => exact Iff.rfl
  · have hrej := (rspStatus_eq_two_iff_argumentRejected h).mp h2
    exact Host.Outcome.next.inj (h.symm.trans (exec_of_argumentRejected hrej))
  · obtain ⟨-, haccel, -⟩ := accelerationGuardIsExact
    obtain ⟨-, hspeed, -⟩ := speedGuardIsExact
    obtain h | h := h
    · obtain rfl := Host.Outcome.next.inj ((haccel s a hF).symm.trans h)
      rfl
    · obtain rfl := Host.Outcome.next.inj ((hspeed s a hF).symm.trans h)
      rfl

/-! ### An error leaves no trace (60_exceptions.md R158) -/

/-- No operation answers ILLEGAL: that is the answer of a reserved opcode (60_exceptions.md R152). -/
theorem exec_rsp_ne_illegal {i : Instr} {s t : State} (h : exec i s = .next t) :
    ∃ st d, st ≠ .illegal ∧ t.rsp = some (rspWord st d) := by
  cases i with
  | new | setAcceleration | setTargetStep | setTargetSpeed =>
    obtain ⟨-, rfl⟩ | ⟨-, hrsp⟩ := exec_configuration_cases (by simp [instrOpcode]) h
    · exact ⟨.invalidArgument, _, by decide, rfl⟩
    · exact ⟨.ok, _, by decide, hrsp⟩
  | next =>
    obtain ⟨-, rfl⟩ | ⟨-, -, -, -, rfl⟩ | ⟨-, -, -, -, rfl⟩ | ⟨-, rfl⟩ := execNext_cases h
    · exact ⟨.done, _, by decide, rfl⟩
    · exact ⟨.done, _, by decide, rfl⟩
    · exact ⟨.done, _, by decide, rfl⟩
    · exact ⟨.ok, _, by decide, rfl⟩
  | getStep => obtain rfl := execGetStep_next h; exact ⟨.ok, _, by decide, rfl⟩
  | getSpeed => obtain rfl := execGetSpeed_next h; exact ⟨.ok, _, by decide, rfl⟩
  | getDelay => obtain rfl := execGetDelay_next h; exact ⟨.ok, _, by decide, rfl⟩
  | getPhase => obtain rfl := execGetPhase_next h; exact ⟨.ok, _, by decide, rfl⟩

theorem rspStatus_ne_three_of_exec {i : Instr} {s t : State} (h : exec i s = .next t) : t.rspStatus ≠ some 3#2 := by
  obtain ⟨st, d, hst, hrsp⟩ := exec_rsp_ne_illegal h
  rw [rspStatus_of_rsp hrsp]
  cases st with
  | illegal => exact absurd rfl hst
  | ok | done | invalidArgument => decide

/-- A command word answered with an error has written its response and nothing else. -/
theorem execWord_error_writes_rsp_only {w : CmdWord} {s t : State} (h : execWord w s = .next t)
    (herr : t.rspStatus = some 2#2 ∨ t.rspStatus = some 3#2) : ∃ r, t = { s with rsp := r } := by
  obtain ⟨op, -, hexec⟩ | ⟨-, ht⟩ := execWord_cases h
  · obtain ⟨htable, -⟩ := invalidArgumentExactlyWhenListed
    have h2 := herr.resolve_right (rspStatus_ne_three_of_exec hexec)
    exact ⟨_, (htable _ s t hexec).2 h2⟩
  · exact ⟨_, ht⟩

/-- No command word looks at the response of the one before it. -/
theorem execWord_ignores_rsp (w : CmdWord) (s : State) (r : Option RspWord) :
    execWord w { s with rsp := r } = execWord w s := by
  obtain ⟨u, hu, hin, -⟩ := execWord_answers w s
  calc execWord w { s with rsp := r }
    _ = .next (u.atPort s.inputs u.rsp) := execWord_atPort hu s.inputs r
    _ = .next u := by rw [← hin]; rfl
    _ = execWord w s := hu.symm

/-- Settles O25. -/
theorem errorsLeaveNoTrace : Obligations.ErrorsLeaveNoTrace := by
  unfold Obligations.ErrorsLeaveNoTrace
  intro w s t h herr
  obtain ⟨r, rfl⟩ := execWord_error_writes_rsp_only h herr
  exact ⟨rfl, fun w' => execWord_ignores_rsp w' s r⟩

end Sys2Proof.Machine
end

section
/-! SUPPORT. The statement of 70_reset_and_hazards.md: what every operation answers in the reset state (R171). The rule is
derived, so each answer is the operation's own rule at `TPS = 0`, with every register 0 and the block not configured. -/

namespace Sys2Proof.Machine

/-! ### The reset state (70_reset_and_hazards.md R171) -/

theorem exec_read_of_reset {i : Instr} (hi : i ∈ [Instr.getStep, .getSpeed, .getDelay, .getPhase]) :
    exec i State.reset = .next { State.reset with rsp := some 0#34 } := by
  obtain ⟨-, hanswer⟩ := readsAnswerTheirRegister
  obtain ⟨hstep, hspeed, hdelay, hphase⟩ := hanswer State.reset
  simp only [List.mem_cons, List.not_mem_nil, or_false] at hi
  obtain rfl | rfl | rfl | rfl := hi
  · exact hstep
  · exact hspeed
  · exact hdelay
  · exact hphase

/-- Settles O11: without a timer rate the setters reject every operand (R88, R94), and without an acceleration NEXT takes
no step (R106). -/
theorem answersInResetState : Obligations.AnswersInResetState := by
  unfold Obligations.AnswersInResetState
  obtain ⟨-, haccel, -⟩ := accelerationGuardIsExact
  obtain ⟨-, hspeed, -⟩ := speedGuardIsExact
  obtain ⟨-, hnew, hnewZero⟩ := newReinitialisesTheBlock
  obtain ⟨-, htarget⟩ := setTargetStepWritesTargetStepOnly
  obtain ⟨hnext, -⟩ := nextUnconfiguredAnswersDone
  have htps : State.reset.tps.toNat = 0 := rfl
  have hunconfigured : State.reset.accel = 0#32 ∨ State.reset.targetSpeed = 0#32 := .inl rfl
  refine ⟨rfl, rfl, fun a => haccel State.reset a htps, fun v => hspeed State.reset v htps, hnewZero State.reset,
    hnew State.reset, htarget State.reset, hnext State.reset hunconfigured, fun i => exec_read_of_reset, fun w hw => ?_⟩
  exact execWord_of_reserved ((opcodeOf_eq_none_iff _).mpr hw) State.reset

end Sys2Proof.Machine
end
